-- ==== Sys2Proof/Word.lean ====
section
/-! DEFINITION. The words of RFBD-TOD: the byte, the 48-bit operation word and the number of a register. -/

namespace Sys2Proof

/-- A byte, bits 7 (most significant) to 0 (R10). -/
abbrev Byte := BitVec 8

/-- A 48-bit operation word (R80). -/
abbrev OpBits := BitVec 48

/-- The number of a register, that is the offset of a cell of the register space, 0x0 to 0xF (R20, R60). -/
abbrev Reg := Fin 16

end Sys2Proof
end

