-- ==== Sys2Proof/Config.lean ====
section
/-! DEFINITION. What is fixed for the life of one block instance: the instantiation (R6) and the parameters that the
source leaves open (R7). They are types here. The spec's default values stand in Machine/Defaults.lean. -/

namespace Sys2Proof

/-- `INST`, the instantiation (R6, R23). -/
inductive Inst where
  | cia1
  | cia2
deriving DecidableEq, Repr

/-- One of the two ports, each with its own direction register (R21). -/
inductive Port where
  | A
  | B
deriving DecidableEq, Repr

/-- What a bit of a direction register makes of the port line of the same number (R6, R29). -/
inductive LineDirection where
  | input
  | output
deriving DecidableEq, Repr

/-- `P_TENTHS_RULE`: which bits of the tenths byte the validity predicate tests (R7, R35). -/
inductive TenthsRule where
  | lowNibble
  | bothNibbles
  | wholeByte
deriving DecidableEq, Repr

/-- `P_HOUR_BIT7`: what `TSET` does with bit 7 of its hours operand (R7, R172). -/
inductive HourBit7 where
  | mask
  | reject
  | or
deriving DecidableEq, Repr

/-- `TIMER_ORDER`: which byte of a timer pair is the low one (R7, R33). -/
inductive TimerOrder where
  | lowFirst
  | highFirst
deriving DecidableEq, Repr

/-- `TOD_ORDER`: the register of each time-of-day field (R7, R34). -/
structure TodOrder where
  tenths  : Reg
  seconds : Reg
  minutes : Reg
  hours   : Reg
deriving DecidableEq, Repr

/-- `TOD_ORDER` is a permutation of the offsets 0x08 to 0x0B (R7). -/
def TodOrder.isPermutation (o : TodOrder) : Bool :=
  decide ([o.tenths, o.seconds, o.minutes, o.hours].Perm [8, 9, 10, 11])

/-- `K[T]`: the known-bit mask of each flag-set type (R7, R27). -/
structure KnownMasks where
  ic     : Byte
  tc     : Byte
  kbdA   : Byte
  joyA   : Byte
  kbdB   : Byte
  joyB   : Byte
  serA   : Byte
  vicA   : Byte
  usrB   : Byte
  rs232B : Byte
deriving DecidableEq, Repr

/-- One entry of `PRESET`: the port whose direction register it is for, and the value (R30). -/
structure PresetEntry where
  target : Port
  value  : Byte
deriving DecidableEq, Repr

/-- `PRESET[p]`: the seven named direction presets (R7, R30). -/
structure PresetTable where
  cia1AKeyboard  : PresetEntry
  cia1AJoystick  : PresetEntry
  cia1BKeyboard  : PresetEntry
  cia1BJoystick  : PresetEntry
  cia2ASerialVic : PresetEntry
  cia2BUserport  : PresetEntry
  cia2BRs232     : PresetEntry
deriving DecidableEq, Repr

/-- `DDR_DEFAULT[INST][A or B]` (R7, R31). -/
structure DdrDefaults where
  cia1A : Byte
  cia1B : Byte
  cia2A : Byte
  cia2B : Byte
deriving DecidableEq, Repr

/-- `RESET_IMAGE`: the bytes of the fourteen registers that are no direction registers after reset (R7, R49). -/
structure ResetImage where
  pra    : Byte
  prb    : Byte
  talo   : Byte
  tahi   : Byte
  tblo   : Byte
  tbhi   : Byte
  tod10  : Byte
  todsec : Byte
  todmin : Byte
  todhr  : Byte
  sdr    : Byte
  icr    : Byte
  cra    : Byte
  crb    : Byte
deriving DecidableEq, Repr

/-- The configuration of one block instance: `INST` (R6) and the eight named arguments of R7. -/
structure Params where
  inst        : Inst
  known       : KnownMasks
  presets     : PresetTable
  ddrDefaults : DdrDefaults
  image       : ResetImage
  tenthsRule  : TenthsRule
  hourBit7    : HourBit7
  timerOrder  : TimerOrder
  todOrder    : TodOrder
deriving DecidableEq, Repr

/-- The one condition R7 puts on a parameter: `TOD_ORDER` is a permutation. -/
def Params.wf (p : Params) : Bool := p.todOrder.isPermutation

end Sys2Proof
end

