-- ==== Sys2Proof/Syntax.lean ====
section
/-! DEFINITION. The syntax of the operations: the names an operand can hold (R83), the operation words as six byte
fields (R80), the formats (R82), and the nineteen operations of the opcode map (R84). -/

namespace Sys2Proof

/-- The ten flag-set types (R27). -/
inductive FlagType where
  | ic
  | tc
  | kbdA
  | joyA
  | kbdB
  | joyB
  | serA
  | vicA
  | usrB
  | rs232B
deriving DecidableEq, Repr

/-- The eight port roles (R24 to R26): the flag-set types that are views of a port. -/
inductive Role where
  | kbdA
  | joyA
  | kbdB
  | joyB
  | serA
  | vicA
  | usrB
  | rs232B
deriving DecidableEq, Repr

/-- The seven named direction presets (R30). -/
inductive Preset where
  | cia1AKeyboard
  | cia1AJoystick
  | cia1BKeyboard
  | cia1BJoystick
  | cia2ASerialVic
  | cia2BUserport
  | cia2BRs232
deriving DecidableEq, Repr

/-- The nineteen operations, one constructor per row of the opcode map, operands in the order of R84. -/
inductive Instr where
  /-- `RD a` (R110) -/
  | rd (a : Reg)
  /-- `WR a, v` (R111) -/
  | wr (a : Reg) (v : Byte)
  /-- `FTRUNC T, v` (R121) -/
  | ftrunc (T : FlagType) (v : Byte)
  /-- `FEXACT T, v` (R122) -/
  | fexact (T : FlagType) (v : Byte)
  /-- `FUNION T, p, q` (R123) -/
  | funion (T : FlagType) (p q : Byte)
  /-- `FINTER T, p, q` (R124) -/
  | finter (T : FlagType) (p q : Byte)
  /-- `FCOMPL T, p` (R125) -/
  | fcompl (T : FlagType) (p : Byte)
  /-- `FCONT T, p, q` (R126) -/
  | fcont (T : FlagType) (p q : Byte)
  /-- `PAS r` (R142) -/
  | pas (r : Role)
  /-- `PFROM r, v` (R143) -/
  | pfrom (r : Role) (v : Byte)
  /-- `VICGET` (R145) -/
  | vicget
  /-- `VICSET n` (R146) -/
  | vicset (n : Byte)
  /-- `DPRESET p` (R160) -/
  | dpreset (p : Preset)
  /-- `DDEFAULT s`, whose `bool` operand selects the port (R161) -/
  | ddefault (port : Port)
  /-- `TVAL` (R171) -/
  | tval
  /-- `TSET h, m, s, t, pm` (R172) -/
  | tset (h m sec t : Byte) (pm : Bool)
  /-- `TISPM` (R173) -/
  | tispm
  /-- `TSETPM pm` (R174) -/
  | tsetpm (pm : Bool)
  /-- `THOUR` (R175) -/
  | thour
deriving DecidableEq, Repr

/-- The rows of the opcode map (R84) by name, without operands. -/
inductive Opcode where
  | rd
  | wr
  | ftrunc
  | fexact
  | funion
  | finter
  | fcompl
  | fcont
  | pas
  | pfrom
  | vicget
  | vicset
  | dpreset
  | ddefault
  | tval
  | tset
  | tispm
  | tsetpm
  | thour
deriving DecidableEq, Repr

/-- The eleven formats (R82). -/
inductive Format where
  | N
  | A
  | AV
  | T1
  | T2
  | R
  | RV
  | V
  | P
  | B
  | TOD
deriving DecidableEq, Repr

/-- An operation word as its six byte fields, most significant first (R80). -/
structure OpWord where
  op : Byte
  a  : Byte
  b  : Byte
  c  : Byte
  d  : Byte
  e  : Byte
deriving DecidableEq, Repr

/-- Why a word is reserved (R85), in the order in which R87 looks. Every cause has the same outcome, ILLEGAL. -/
inductive Reserved where
  /-- R85 (a), R87 (1): the opcode byte is none of the nineteen. -/
  | unknownOpcode
  /-- R85 (b), R87 (2): a byte that the format does not use is not 0x00. -/
  | unusedByteNonzero
  /-- R85 (c), R87 (3): an operand is outside its kind's numeric range. -/
  | operandOutOfRange
  /-- R85 (d), R87 (4): a role, a preset or a bank helper of the other instantiation. -/
  | otherInstantiation
deriving DecidableEq, Repr

/-- The three values of the response's status (R81, R200). -/
inductive Status where
  | ok
  | fail
  | illegal
deriving DecidableEq, Repr

/-- The causes of a FAIL (R201). -/
inductive FailCause where
  /-- a `TSET` whose operands are no valid time -/
  | invalidBcd
  /-- a `FEXACT` whose byte has a bit outside the type's mask -/
  | unknownBits
deriving DecidableEq, Repr

/-- The response to an operation word: status and 8-bit result (R81). -/
structure Response where
  st  : Status
  res : Byte
deriving DecidableEq, Repr

/-- One element of what the requester presents: an operation word, or an assertion of the reset input (R9, R220). -/
inductive Request where
  | op (w : OpBits)
  | rst
deriving DecidableEq, Repr

end Sys2Proof
end

