-- ==== Sys2Proof/Machine/Instantiation.lean ====
section
/-! DEFINITION. Which instantiation a role and a preset belong to (R30, R83, R141). -/

namespace Sys2Proof

/-- `inst_of(r)` (R141). -/
def Role.inst : Role → Inst
  | .kbdA | .joyA | .kbdB | .joyB => .cia1
  | .serA | .vicA | .usrB | .rs232B => .cia2

/-- The instantiation of a preset (R30, R83). -/
def Preset.inst : Preset → Inst
  | .cia1AKeyboard | .cia1AJoystick | .cia1BKeyboard | .cia1BJoystick => .cia1
  | .cia2ASerialVic | .cia2BUserport | .cia2BRs232 => .cia2

end Sys2Proof
end

