-- ==== Sys2Proof/WellFormed.lean ====
section
/-! DEFINITION. When an operation is legal on a block of a given instantiation: the conditions that the types of
Syntax.lean do not express (R83, R85 (d), R87 (4)). -/

namespace Sys2Proof

/-- The operation exists on a block with `INST = inst` (R83, R85 (d)). -/
def Instr.wellFormed (inst : Inst) : Instr → Bool
  | .pas r => r.inst = inst
  | .pfrom r _ => r.inst = inst
  | .vicget => inst = .cia2
  | .vicset _ => inst = .cia2
  | .dpreset p => p.inst = inst
  | .rd _ => true
  | .wr _ _ => true
  | .ftrunc _ _ => true
  | .fexact _ _ => true
  | .funion _ _ _ => true
  | .finter _ _ _ => true
  | .fcompl _ _ => true
  | .fcont _ _ _ => true
  | .ddefault _ => true
  | .tval => true
  | .tset _ _ _ _ _ => true
  | .tispm => true
  | .tsetpm _ => true
  | .thour => true

end Sys2Proof
end

