-- ==== Sys2Proof/Decode.lean ====
section
/-! DEFINITION. Decoding and encoding of operation words (R80 to R90): total on all 2^48 words, every reserved word
rejected by name, and the encoder written from the same tables. -/

namespace Sys2Proof

/-! ## The word and its fields -/

/-- The six byte fields of a 48-bit word: `op = w[47:40]`, ..., `e = w[7:0]` (R80). -/
def OpWord.ofBits (w : OpBits) : OpWord :=
  { op := w.extractLsb' 40 8, a := w.extractLsb' 32 8, b := w.extractLsb' 24 8,
    c := w.extractLsb' 16 8, d := w.extractLsb' 8 8, e := w.extractLsb' 0 8 }

/-- The 48-bit word of six byte fields (R80). -/
def OpWord.toBits (f : OpWord) : OpBits :=
  f.op ++ f.a ++ f.b ++ f.c ++ f.d ++ f.e

/-- The six bytes as a byte array holds them, `op` first (R80). -/
def OpWord.toBytes (f : OpWord) : List Byte := [f.op, f.a, f.b, f.c, f.d, f.e]

/-! ## Codes -/

/-- The operation's opcode byte (R84). -/
def Opcode.byte : Opcode → Byte
  | .rd => 0x00
  | .wr => 0x01
  | .ftrunc => 0x10
  | .fexact => 0x11
  | .funion => 0x12
  | .finter => 0x13
  | .fcompl => 0x14
  | .fcont => 0x15
  | .pas => 0x20
  | .pfrom => 0x21
  | .vicget => 0x22
  | .vicset => 0x23
  | .dpreset => 0x30
  | .ddefault => 0x31
  | .tval => 0x40
  | .tset => 0x41
  | .tispm => 0x42
  | .tsetpm => 0x43
  | .thour => 0x44

/-- The rows of the opcode map in its order (R84). -/
def Opcode.all : List Opcode :=
  [.rd, .wr, .ftrunc, .fexact, .funion, .finter, .fcompl, .fcont, .pas, .pfrom, .vicget, .vicset,
   .dpreset, .ddefault, .tval, .tset, .tispm, .tsetpm, .thour]

/-- The operation's format (R84). -/
def Opcode.format : Opcode → Format
  | .rd => .A
  | .wr => .AV
  | .ftrunc => .T1
  | .fexact => .T1
  | .funion => .T2
  | .finter => .T2
  | .fcompl => .T1
  | .fcont => .T2
  | .pas => .R
  | .pfrom => .RV
  | .vicget => .N
  | .vicset => .V
  | .dpreset => .P
  | .ddefault => .B
  | .tval => .N
  | .tset => .TOD
  | .tispm => .N
  | .tsetpm => .B
  | .thour => .N

/-- The type codes (R27, R83). -/
def FlagType.code : FlagType → Byte
  | .ic => 0x00
  | .tc => 0x01
  | .kbdA => 0x02
  | .joyA => 0x03
  | .kbdB => 0x04
  | .joyB => 0x05
  | .serA => 0x06
  | .vicA => 0x07
  | .usrB => 0x08
  | .rs232B => 0x09

def FlagType.all : List FlagType :=
  [.ic, .tc, .kbdA, .joyA, .kbdB, .joyB, .serA, .vicA, .usrB, .rs232B]

/-- The flag-set type a role is: the same names and the same codes (R27, R83). -/
def Role.type : Role → FlagType
  | .kbdA => .kbdA
  | .joyA => .joyA
  | .kbdB => .kbdB
  | .joyB => .joyB
  | .serA => .serA
  | .vicA => .vicA
  | .usrB => .usrB
  | .rs232B => .rs232B

/-- The role codes are the type codes, without those of `IC` and `TC` (R83). -/
def Role.code (r : Role) : Byte := r.type.code

def Role.all : List Role := [.kbdA, .joyA, .kbdB, .joyB, .serA, .vicA, .usrB, .rs232B]

/-- The preset codes (R30, R83). -/
def Preset.code : Preset → Byte
  | .cia1AKeyboard => 0x00
  | .cia1AJoystick => 0x01
  | .cia1BKeyboard => 0x02
  | .cia1BJoystick => 0x03
  | .cia2ASerialVic => 0x04
  | .cia2BUserport => 0x05
  | .cia2BRs232 => 0x06

def Preset.all : List Preset :=
  [.cia1AKeyboard, .cia1AJoystick, .cia1BKeyboard, .cia1BJoystick, .cia2ASerialVic, .cia2BUserport,
   .cia2BRs232]

/-- The code of a `bool` operand (R83). -/
def boolCode (p : Bool) : Byte := if p then 0x01 else 0x00

/-- The `bool` that selects a port in `DDEFAULT`: 0x00 = A, 0x01 = B (R83). -/
def Port.code : Port → Byte
  | .A => 0x00
  | .B => 0x01

/-- The first of `all` whose code is `b`. -/
def findCode {α : Type} (all : List α) (code : α → Byte) (b : Byte) : Option α :=
  all.find? fun x => code x == b

/-- R87 (1): the row of an opcode byte. -/
def Opcode.ofByte (b : Byte) : Option Opcode := findCode Opcode.all Opcode.byte b

/-- An `addr` operand: 0x00 to 0x0F (R83). -/
def addrOfByte (b : Byte) : Option Reg :=
  if h : b.toNat < 16 then some ⟨b.toNat, h⟩ else none

/-- The byte of an `addr` operand. -/
def addrByte (r : Reg) : Byte := BitVec.ofNat 8 r.val

/-- A `type` operand: 0x00 to 0x09 (R83). -/
def typeOfByte (b : Byte) : Option FlagType := findCode FlagType.all FlagType.code b

/-- A `role` operand: 0x02 to 0x09 (R83). -/
def roleOfByte (b : Byte) : Option Role := findCode Role.all Role.code b

/-- A `preset` operand: 0x00 to 0x06 (R83). -/
def presetOfByte (b : Byte) : Option Preset := findCode Preset.all Preset.code b

/-- A `bool` operand: 0x00 or 0x01 (R83). -/
def boolOfByte (b : Byte) : Option Bool := findCode [false, true] boolCode b

/-- A `bool` operand that selects a port (R83). -/
def portOfByte (b : Byte) : Option Port := findCode [.A, .B] Port.code b

/-! ## Decoding -/

/-- R82: the bytes that the format does not use are 0x00. -/
def OpWord.unusedZero (f : OpWord) : Format → Bool
  | .N => f.a == 0 && f.b == 0 && f.c == 0 && f.d == 0 && f.e == 0
  | .A => f.b == 0 && f.c == 0 && f.d == 0 && f.e == 0
  | .AV => f.c == 0 && f.d == 0 && f.e == 0
  | .T1 => f.c == 0 && f.d == 0 && f.e == 0
  | .T2 => f.d == 0 && f.e == 0
  | .R => f.b == 0 && f.c == 0 && f.d == 0 && f.e == 0
  | .RV => f.c == 0 && f.d == 0 && f.e == 0
  | .V => f.b == 0 && f.c == 0 && f.d == 0 && f.e == 0
  | .P => f.b == 0 && f.c == 0 && f.d == 0 && f.e == 0
  | .B => f.b == 0 && f.c == 0 && f.d == 0 && f.e == 0
  | .TOD => true

/-- R87 (3): the operation of a row with the operands of its bytes, none where one is out of range. -/
def decodeOperands (f : OpWord) : Opcode → Option Instr
  | .rd => (addrOfByte f.a).map .rd
  | .wr => (addrOfByte f.a).map (.wr · f.b)
  | .ftrunc => (typeOfByte f.a).map (.ftrunc · f.b)
  | .fexact => (typeOfByte f.a).map (.fexact · f.b)
  | .funion => (typeOfByte f.a).map (.funion · f.b f.c)
  | .finter => (typeOfByte f.a).map (.finter · f.b f.c)
  | .fcompl => (typeOfByte f.a).map (.fcompl · f.b)
  | .fcont => (typeOfByte f.a).map (.fcont · f.b f.c)
  | .pas => (roleOfByte f.a).map .pas
  | .pfrom => (roleOfByte f.a).map (.pfrom · f.b)
  | .vicget => some .vicget
  | .vicset => some (.vicset f.a)
  | .dpreset => (presetOfByte f.a).map .dpreset
  | .ddefault => (portOfByte f.a).map .ddefault
  | .tval => some .tval
  | .tset => (boolOfByte f.e).map (.tset f.a f.b f.c f.d ·)
  | .tispm => some .tispm
  | .tsetpm => (boolOfByte f.a).map .tsetpm
  | .thour => some .thour

/-- Steps (1) to (3) of R87 on the byte fields. -/
def decodeFields (f : OpWord) : Except Reserved Instr :=
  match Opcode.ofByte f.op with
  | none => .error .unknownOpcode
  | some o =>
    if f.unusedZero o.format then
      match decodeOperands f o with
      | some i => .ok i
      | none => .error .operandOutOfRange
    else .error .unusedByteNonzero

/-- Steps (1) to (3) of R87 on a word: the operation, whatever the block's instantiation. Step (4) is
`Instr.wellFormed`, which each meaning checks itself (log 12). -/
def decode (w : OpBits) : Except Reserved Instr := decodeFields (OpWord.ofBits w)

/-- All four checking steps of R87 for a block with `INST = inst`. -/
def decodeOn (inst : Inst) (w : OpBits) : Except Reserved Instr :=
  match decode w with
  | .ok i => if i.wellFormed inst then .ok i else .error .otherInstantiation
  | .error e => .error e

/-- The decoder on a byte array, `op` first (R80): the operation and the bytes after its six, none where the word is
reserved or fewer than six bytes are left. -/
def decodeBytes : List Byte → Option (Instr × List Byte)
  | op :: a :: b :: c :: d :: e :: rest =>
    match decodeFields ⟨op, a, b, c, d, e⟩ with
    | .ok i => some (i, rest)
    | .error _ => none
  | _ => none

/-! ## Encoding -/

/-- The row of an operation (R84). -/
def Instr.opcode : Instr → Opcode
  | .rd _ => .rd
  | .wr _ _ => .wr
  | .ftrunc _ _ => .ftrunc
  | .fexact _ _ => .fexact
  | .funion _ _ _ => .funion
  | .finter _ _ _ => .finter
  | .fcompl _ _ => .fcompl
  | .fcont _ _ _ => .fcont
  | .pas _ => .pas
  | .pfrom _ _ => .pfrom
  | .vicget => .vicget
  | .vicset _ => .vicset
  | .dpreset _ => .dpreset
  | .ddefault _ => .ddefault
  | .tval => .tval
  | .tset _ _ _ _ _ => .tset
  | .tispm => .tispm
  | .tsetpm _ => .tsetpm
  | .thour => .thour

/-- The byte fields of an operation (R82, R84). -/
def encodeFields (i : Instr) : OpWord :=
  let op := i.opcode.byte
  match i with
  | .rd a => ⟨op, addrByte a, 0, 0, 0, 0⟩
  | .wr a v => ⟨op, addrByte a, v, 0, 0, 0⟩
  | .ftrunc T v => ⟨op, T.code, v, 0, 0, 0⟩
  | .fexact T v => ⟨op, T.code, v, 0, 0, 0⟩
  | .funion T p q => ⟨op, T.code, p, q, 0, 0⟩
  | .finter T p q => ⟨op, T.code, p, q, 0, 0⟩
  | .fcompl T p => ⟨op, T.code, p, 0, 0, 0⟩
  | .fcont T p q => ⟨op, T.code, p, q, 0, 0⟩
  | .pas r => ⟨op, r.code, 0, 0, 0, 0⟩
  | .pfrom r v => ⟨op, r.code, v, 0, 0, 0⟩
  | .vicget => ⟨op, 0, 0, 0, 0, 0⟩
  | .vicset n => ⟨op, n, 0, 0, 0, 0⟩
  | .dpreset p => ⟨op, p.code, 0, 0, 0, 0⟩
  | .ddefault s => ⟨op, s.code, 0, 0, 0, 0⟩
  | .tval => ⟨op, 0, 0, 0, 0, 0⟩
  | .tset h m s t pm => ⟨op, h, m, s, t, boolCode pm⟩
  | .tispm => ⟨op, 0, 0, 0, 0, 0⟩
  | .tsetpm pm => ⟨op, boolCode pm, 0, 0, 0, 0⟩
  | .thour => ⟨op, 0, 0, 0, 0, 0⟩

/-- The operation word of an operation. -/
def encode (i : Instr) : OpBits := (encodeFields i).toBits

/-! ## The host's window on the decoder -/

/-- A word numbered as spec/opcode_table.json numbers it: one 48-bit number, bit 0 the least significant bit of byte
`e`, `op` in bits 47 to 40 (R80, R90; log 11). Bits at and above `nbits` are 0. -/
def tableWord (nbits w : Nat) : OpBits := BitVec.ofNat 48 (w % 2 ^ nbits)

/-- The operation the decoder reads from the opcode table's word `w`. -/
def decodeTableWord (nbits w : Nat) : Option Instr :=
  match decode (tableWord nbits w) with
  | .ok i => some i
  | .error _ => none

end Sys2Proof
end

