-- ==== Sys2Proof/Machine/Operands.lean ====
section
/-! DEFINITION. The operand forms: which register a port, a direction and a time-of-day field is (R21, R34, R141), and
what a type, a preset and a port's default are under the instance's parameters (R27, R30, R31). -/

namespace Sys2Proof

/-! ## Register names (R21) -/

def Reg.pra : Reg := 0
def Reg.prb : Reg := 1
def Reg.ddra : Reg := 2
def Reg.ddrb : Reg := 3
def Reg.talo : Reg := 4
def Reg.tahi : Reg := 5
def Reg.tblo : Reg := 6
def Reg.tbhi : Reg := 7
def Reg.tod10 : Reg := 8
def Reg.todsec : Reg := 9
def Reg.todmin : Reg := 10
def Reg.todhr : Reg := 11
def Reg.sdr : Reg := 12
def Reg.icr : Reg := 13
def Reg.cra : Reg := 14
def Reg.crb : Reg := 15

/-! ## Ports, directions, roles -/

/-- The port register (R21). -/
def Port.reg : Port → Reg
  | .A => Reg.pra
  | .B => Reg.prb

/-- The direction register, `x[2 + s]` (R21, R161). -/
def Port.ddr : Port → Reg
  | .A => Reg.ddra
  | .B => Reg.ddrb

/-- The direction bit sense: 0 is input, 1 is output (R6, R29). -/
def directionOfBit : Bool → LineDirection
  | false => .input
  | true => .output

/-- `port_of(r)` (R141). -/
def Role.port : Role → Port
  | .kbdA | .joyA | .serA | .vicA => .A
  | .kbdB | .joyB | .usrB | .rs232B => .B

/-- The register a role is a view of: `x[port_of(r)]` (R141). -/
def Role.reg (r : Role) : Reg := r.port.reg

/-! ## Parameters, looked up -/

/-- `K[T]` (R27). -/
def Params.mask (p : Params) : FlagType → Byte
  | .ic => p.known.ic
  | .tc => p.known.tc
  | .kbdA => p.known.kbdA
  | .joyA => p.known.joyA
  | .kbdB => p.known.kbdB
  | .joyB => p.known.joyB
  | .serA => p.known.serA
  | .vicA => p.known.vicA
  | .usrB => p.known.usrB
  | .rs232B => p.known.rs232B

/-- `K[r]` of a role. -/
def Params.roleMask (p : Params) (r : Role) : Byte := p.mask r.type

/-- `PRESET[p]` (R30). -/
def Params.preset (p : Params) : Preset → PresetEntry
  | .cia1AKeyboard => p.presets.cia1AKeyboard
  | .cia1AJoystick => p.presets.cia1AJoystick
  | .cia1BKeyboard => p.presets.cia1BKeyboard
  | .cia1BJoystick => p.presets.cia1BJoystick
  | .cia2ASerialVic => p.presets.cia2ASerialVic
  | .cia2BUserport => p.presets.cia2BUserport
  | .cia2BRs232 => p.presets.cia2BRs232

/-- `DDR_DEFAULT[INST][A or B]` of this instance (R31). -/
def Params.ddrDefault (p : Params) (s : Port) : Byte :=
  match p.inst, s with
  | .cia1, .A => p.ddrDefaults.cia1A
  | .cia1, .B => p.ddrDefaults.cia1B
  | .cia2, .A => p.ddrDefaults.cia2A
  | .cia2, .B => p.ddrDefaults.cia2B

/-- The cause that a FAIL of this operation stands for; no other operation can fail (R201). -/
def Instr.failCause : Instr → Option FailCause
  | .tset _ _ _ _ _ => some .invalidBcd
  | .fexact _ _ => some .unknownBits
  | .rd _ | .wr _ _ | .ftrunc _ _ | .funion _ _ _ | .finter _ _ _ | .fcompl _ _ | .fcont _ _ _
  | .pas _ | .pfrom _ _ | .vicget | .vicset _ | .dpreset _ | .ddefault _ | .tval | .tispm
  | .tsetpm _ | .thour => none

/-- The code of a status: 0 OK, 1 FAIL, 2 ILLEGAL (R81). -/
def Status.code : Status → BitVec 2
  | .ok => 0
  | .fail => 1
  | .illegal => 2

end Sys2Proof
end

