-- ==== Sys2Proof/Machine/Defaults.lean ====
section
/-! DEFINITION. The spec's default value of every parameter that the source leaves open (R7, R27, R30, R31, R49). -/

namespace Sys2Proof

/-- The default `K[T]` (R27; log 4). -/
def KnownMasks.default : KnownMasks :=
  { ic := 0x9F, tc := 0xFF, kbdA := 0xFF, joyA := 0x1F, kbdB := 0xFF, joyB := 0x1F, serA := 0xF8,
    vicA := 0x03, usrB := 0xFF, rs232B := 0xDF }

/-- The default `PRESET` (R30; log 4). -/
def PresetTable.default : PresetTable :=
  { cia1AKeyboard := ⟨.A, 0xFF⟩, cia1AJoystick := ⟨.A, 0x00⟩, cia1BKeyboard := ⟨.B, 0x00⟩,
    cia1BJoystick := ⟨.B, 0x00⟩, cia2ASerialVic := ⟨.A, 0x3F⟩, cia2BUserport := ⟨.B, 0x00⟩,
    cia2BRs232 := ⟨.B, 0x06⟩ }

/-- The default `DDR_DEFAULT` (R31; log 4). -/
def DdrDefaults.default : DdrDefaults :=
  { cia1A := 0xFF, cia1B := 0x00, cia2A := 0x3F, cia2B := 0x00 }

/-- The default `RESET_IMAGE`, all 0x00 (R49; log 3). -/
def ResetImage.zero : ResetImage :=
  { pra := 0, prb := 0, talo := 0, tahi := 0, tblo := 0, tbhi := 0, tod10 := 0, todsec := 0,
    todmin := 0, todhr := 0, sdr := 0, icr := 0, cra := 0, crb := 0 }

/-- The default `TOD_ORDER` (R34; log 6). -/
def TodOrder.default : TodOrder := { tenths := 8, seconds := 9, minutes := 10, hours := 11 }

/-- A block of the given instantiation with every open parameter at its default (R7). -/
def Params.default (inst : Inst) : Params :=
  { inst := inst, known := .default, presets := .default, ddrDefaults := .default, image := .zero,
    tenthsRule := .lowNibble, hourBit7 := .mask, timerOrder := .lowFirst, todOrder := .default }

/-- The sixteen registers after reset (R48 to R50, R220). -/
def resetRegs (p : Params) : Vector Byte 16 :=
  #v[p.image.pra, p.image.prb, p.ddrDefault .A, p.ddrDefault .B,
     p.image.talo, p.image.tahi, p.image.tblo, p.image.tbhi,
     p.image.tod10, p.image.todsec, p.image.todmin, p.image.todhr,
     p.image.sdr, p.image.icr, p.image.cra, p.image.crb]

end Sys2Proof
end

