-- ==== Sys2Proof/Machine/State.lean ====
section
/-! DEFINITION. The state of one block instance with its requester, the reasons a step can stop, and the state after
reset. -/

namespace Sys2Proof.Machine

/-- The sixteen registers (R20), the parameters they are interpreted under (R6, R7), and what stands outside the
block: the requester's sequence and index (R44) and the response output of the latest step (R81). -/
structure State where
  /-- `x[0]` to `x[15]`, the whole architectural state of the block (R20). -/
  regs   : Vector Byte 16
  /-- `INST` and the open parameters: no state, fixed for the life of the instance (R20, R221; log 1). -/
  params : Params
  /-- What the requester presents, in order: operation words and assertions of `rst` (R44, R220; log 7, log 8). -/
  prog   : List Request
  /-- The requester's sequence index (R44). -/
  pc     : Nat
  /-- The response of the latest step, an output that no operation reads (R45, R81; log 9). -/
  resp   : Option Response
deriving DecidableEq, Repr

/-- Reasons for the machine to stop. -/
inductive Fault where
  /-- Raised by `step` alone, when `pc` has reached the end of the requester's finite sequence: the run has ended
  (R44). Safe: no operation is left that the hardware would perform (log 10). -/
  | runEnded
deriving DecidableEq, Repr

/-- Reasons to refuse an operation. -/
inductive Refusal where
  /-- An operation that has no meaning yet, raised by `exec`'s arm for it. Safe. No arm raises it: every operation has
  its meaning. -/
  | notModelled (mnemonic : String)
deriving DecidableEq, Repr

/-- The state right after reset of a block with parameters `p`, before the requester presents anything (R50). -/
def State.resetOf (p : Params) : State :=
  { regs := resetRegs p, params := p, prog := [], pc := 0, resp := none }

/-- The state right after reset, parameters at their defaults (R7, R50), `INST = CIA2` (log 2). -/
def State.reset : State := State.resetOf (Params.default .cia2)

end Sys2Proof.Machine
end

