-- ==== Sys2Proof/Machine/Ops.lean ====
section
/-! DEFINITION. The operations every meaning is made of: reading and writing a register, the response of each of the
three outcomes (R200), which is what takes the place of taking an exception on this hardware (R204), the reset step
(R220) and the requester's fetch (R44). -/

namespace Sys2Proof.Machine

/-- What a step answers. -/
abbrev Result := Host.Outcome State Fault Refusal

/-! ## Registers -/

/-- The read `x[r]` (R11, R22). -/
def State.read (s : State) (r : Reg) : Byte := s.regs[r.val]

/-- The write `x[r] <- v` (R11, R22): every register holds any byte. -/
def State.write (s : State) (r : Reg) (v : Byte) : State :=
  { s with regs := s.regs.set r.val v r.isLt }

/-- `MemRead(a, 1)`: the read of a cell from the bus side (R11, R60). -/
def State.memRead (s : State) (a : BitVec 4) : Byte := s.read a.toFin

/-- `MemWrite(a, 1, v)` (R11, R60). -/
def State.memWrite (s : State) (a : BitVec 4) (v : Byte) : State := s.write a.toFin v

/-! ## Outcomes -/

/-- The response output (R81). -/
def State.respond (s : State) (st : Status) (res : Byte) : State :=
  { s with resp := some ⟨st, res⟩ }

/-- A boolean result: 0x01 for true, 0x00 for false (R81). -/
def boolResult (p : Bool) : Byte := if p then 0x01 else 0x00

/-- The operation ends OK with result `res` in state `s` (R200). -/
def ok (res : Byte) (s : State) : Result := .next (s.respond .ok res)

/-- `raise Fail(cause)` (R11, R200): status FAIL, result 0x00, no register written. The cause is no output (R201;
log 19). -/
def raiseFail (_cause : FailCause) (s : State) : Result := .next (s.respond .fail 0x00)

/-- `raise Illegal(w)` (R11, R200): status ILLEGAL, result 0x00, no register written. -/
def raiseIllegal (s : State) : Result := .next (s.respond .illegal 0x00)

/-- R87 (4): an operation that exists on blocks of instantiation `inst` only, ILLEGAL on the other (R85 (d)). -/
def onlyOn (inst : Inst) (s : State) (perform : Result) : Result :=
  if s.params.inst = inst then perform else raiseIllegal s

/-! ## Reset and the requester -/

/-- What asserting `rst` does: all sixteen registers to their reset values, nothing else of the block, no response
(R220, R221). -/
def State.applyReset (s : State) : State :=
  { s with regs := resetRegs s.params, resp := none }

/-- What the requester presents next, none when its sequence has ended (R44). -/
def State.fetch (s : State) : Option Request := s.prog[s.pc]?

/-- `pc <- pc + 1`, the only update `pc` ever gets (R11, R44). -/
def State.advance (s : State) : State := { s with pc := s.pc + 1 }

/-- The requester's index advances after every operation, whatever its status (R44, R93). -/
def advanced : Result → Result
  | .next t => .next t.advance
  | .fault f => .fault f
  | .refused r => .refused r

/-- Place a request where the requester presents it next: at index `pc` of its sequence, or at its end where the run
is over (log 7). -/
def State.present (s : State) (q : Request) : State :=
  { s with prog := s.prog.take s.pc ++ q :: s.prog.drop (s.pc + 1), pc := min s.pc s.prog.length }

end Sys2Proof.Machine
end

