-- ==== Sys2Proof/Machine/Direction.lean ====
section
/-! DEFINITION. Data-direction presets: DPRESET, DDEFAULT (spec/43_direction_presets.md), and what a direction register
says of its port's lines. -/

namespace Sys2Proof.Machine

/-- The direction of line `i` of a port: bit `i` of the port's direction register (R29). No operation reads it (R32,
R163). -/
def State.lineDirection (s : State) (port : Port) (i : Fin 8) : LineDirection :=
  directionOfBit ((s.read port.ddr).getLsbD i)

/-- `DPRESET p` (R160): ILLEGAL for a preset of the other instantiation (R83). -/
def execDpreset (p : Preset) (s : State) : Result :=
  let entry := s.params.preset p
  onlyOn p.inst s (ok entry.value (s.write entry.target.ddr entry.value))

/-- `DDEFAULT s` (R161). -/
def execDdefault (port : Port) (s : State) : Result :=
  let value := s.params.ddrDefault port
  ok value (s.write port.ddr value)

end Sys2Proof.Machine
end

