-- ==== Sys2Proof/Machine/Flags.lean ====
section
/-! DEFINITION. The flag-set algebra (R13, R120 to R126), the port views (R140), the VIC-bank functions (R144), and
the named bits of the flag-set types, which no operation reads (R27, R40, R42; log 4). -/

namespace Sys2Proof.Machine

/-! ## Set algebra within a known-bit mask `k` -/

/-- `trunc_T(b)` (R13, R121). -/
def trunc (k b : Byte) : Byte := b &&& k

/-- `exact_T(b)` is defined (R13, R122). -/
def isExact (k b : Byte) : Bool := b &&& ~~~k == 0

/-- R123. -/
def union (k p q : Byte) : Byte := (p ||| q) &&& k

/-- R124. -/
def inter (k p q : Byte) : Byte := p &&& q &&& k

/-- R125: the complement within the known bits. -/
def compl (k p : Byte) : Byte := ~~~p &&& k

/-- R126: `p` contains `q`, both truncated. -/
def contains (k p q : Byte) : Bool := trunc k p &&& trunc k q == trunc k q

/-! ## Views -/

/-- `as_role(r, b)` for a role with mask `k` (R140). -/
def asRole (k b : Byte) : Byte := b &&& k

/-- `from_role(r, v)` for a role with mask `k` (R140). -/
def fromRole (k v : Byte) : Byte := v &&& k

/-- `vic_get(b)` (R144). -/
def vicGet (b : Byte) : Byte := b &&& 0x03

/-- `vic_set(x, n)` (R144). -/
def vicSet (x n : Byte) : Byte := (x &&& 0xFC) ||| (n &&& 0x03)

/-! ## Named bits -/

/-- A named group of bits of a byte. -/
structure NamedBits where
  name : String
  mask : Byte
deriving DecidableEq, Repr

/-- The direction in which an interrupt-control byte travels: one stored byte, two meanings (R39, R227). -/
inductive IcDirection where
  | written
  | read
deriving DecidableEq, Repr

/-- The fields of InterruptControl in each direction (R40). -/
def icFields : IcDirection → List NamedBits
  | .written => [⟨"TA", 0x01⟩, ⟨"TB", 0x02⟩, ⟨"ALRM", 0x04⟩, ⟨"SP", 0x08⟩, ⟨"FLG", 0x10⟩, ⟨"SC", 0x80⟩]
  | .read => [⟨"TA", 0x01⟩, ⟨"TB", 0x02⟩, ⟨"ALRM", 0x04⟩, ⟨"SP", 0x08⟩, ⟨"FLG", 0x10⟩, ⟨"IR", 0x80⟩]

/-- Which timer's control register a TimerControl byte was taken from (R41, R228). -/
inductive TcContext where
  | timerA
  | timerB
deriving DecidableEq, Repr

/-- The fields of TimerControl in each context; bits 7:5 differ (R42). -/
def tcFields : TcContext → List NamedBits
  | .timerA => [⟨"START", 0x01⟩, ⟨"PBON", 0x02⟩, ⟨"OUTMODE", 0x04⟩, ⟨"RUNMODE", 0x08⟩, ⟨"LOAD", 0x10⟩,
      ⟨"INMODE", 0x20⟩, ⟨"SPMODE", 0x40⟩, ⟨"TODIN", 0x80⟩]
  | .timerB => [⟨"START", 0x01⟩, ⟨"PBON", 0x02⟩, ⟨"OUTMODE", 0x04⟩, ⟨"RUNMODE", 0x08⟩, ⟨"LOAD", 0x10⟩,
      ⟨"INMODE0", 0x20⟩, ⟨"INMODE1", 0x40⟩, ⟨"ALARM", 0x80⟩]

/-- The named bits of each role (R27). -/
def roleFields : Role → List NamedBits
  | .kbdA => [⟨"COL0", 0x01⟩, ⟨"COL1", 0x02⟩, ⟨"COL2", 0x04⟩, ⟨"COL3", 0x08⟩, ⟨"COL4", 0x10⟩,
      ⟨"COL5", 0x20⟩, ⟨"COL6", 0x40⟩, ⟨"COL7", 0x80⟩]
  | .kbdB => [⟨"ROW0", 0x01⟩, ⟨"ROW1", 0x02⟩, ⟨"ROW2", 0x04⟩, ⟨"ROW3", 0x08⟩, ⟨"ROW4", 0x10⟩,
      ⟨"ROW5", 0x20⟩, ⟨"ROW6", 0x40⟩, ⟨"ROW7", 0x80⟩]
  | .joyA => [⟨"UP", 0x01⟩, ⟨"DOWN", 0x02⟩, ⟨"LEFT", 0x04⟩, ⟨"RIGHT", 0x08⟩, ⟨"FIRE", 0x10⟩]
  | .joyB => [⟨"UP", 0x01⟩, ⟨"DOWN", 0x02⟩, ⟨"LEFT", 0x04⟩, ⟨"RIGHT", 0x08⟩, ⟨"FIRE", 0x10⟩]
  | .serA => [⟨"ATN_OUT", 0x08⟩, ⟨"CLOCK_OUT", 0x10⟩, ⟨"DATA_OUT", 0x20⟩, ⟨"CLOCK_IN", 0x40⟩,
      ⟨"DATA_IN", 0x80⟩]
  | .vicA => [⟨"BANK", 0x03⟩]
  | .usrB => [⟨"PB0", 0x01⟩, ⟨"PB1", 0x02⟩, ⟨"PB2", 0x04⟩, ⟨"PB3", 0x08⟩, ⟨"PB4", 0x10⟩, ⟨"PB5", 0x20⟩,
      ⟨"PB6", 0x40⟩, ⟨"PB7", 0x80⟩]
  | .rs232B => [⟨"RXD", 0x01⟩, ⟨"RTS", 0x02⟩, ⟨"DTR", 0x04⟩, ⟨"RI", 0x08⟩, ⟨"DCD", 0x10⟩, ⟨"CTS", 0x40⟩,
      ⟨"DSR", 0x80⟩]

/-- The union of the masks of a field table. -/
def unionOfMasks (fs : List NamedBits) : Byte := fs.foldr (fun f k => f.mask ||| k) 0

end Sys2Proof.Machine
end

