-- ==== Sys2Proof/Machine/FlagSet.lean ====
section
/-! DEFINITION. Flag-set value operations: FTRUNC, FEXACT, FUNION, FINTER, FCOMPL, FCONT (spec/41_flagset_ops.md). They
read and write no register (R127). -/

namespace Sys2Proof.Machine

/-- `FTRUNC T, v` (R121). -/
def execFtrunc (T : FlagType) (v : Byte) (s : State) : Result := ok (trunc (s.params.mask T) v) s

/-- `FEXACT T, v` (R122). -/
def execFexact (T : FlagType) (v : Byte) (s : State) : Result :=
  if isExact (s.params.mask T) v then ok v s else raiseFail .unknownBits s

/-- `FUNION T, p, q` (R123). -/
def execFunion (T : FlagType) (p q : Byte) (s : State) : Result := ok (union (s.params.mask T) p q) s

/-- `FINTER T, p, q` (R124). -/
def execFinter (T : FlagType) (p q : Byte) (s : State) : Result := ok (inter (s.params.mask T) p q) s

/-- `FCOMPL T, p` (R125). -/
def execFcompl (T : FlagType) (p : Byte) (s : State) : Result := ok (compl (s.params.mask T) p) s

/-- `FCONT T, p, q` (R126). -/
def execFcont (T : FlagType) (p q : Byte) (s : State) : Result :=
  ok (boolResult (contains (s.params.mask T) p q)) s

end Sys2Proof.Machine
end

