-- ==== Sys2Proof/Machine/PortView.lean ====
section
/-! DEFINITION. Port views and VIC-bank helpers: PAS, PFROM, VICGET, VICSET (spec/42_port_views.md). No direction
register is consulted (R223). -/

namespace Sys2Proof.Machine

/-- `PAS r` (R142): ILLEGAL for a role of the other instantiation (R141). -/
def execPas (r : Role) (s : State) : Result :=
  onlyOn r.inst s (ok (asRole (s.params.roleMask r) (s.read r.reg)) s)

/-- `PFROM r, v` (R143): the whole port byte is replaced. -/
def execPfrom (r : Role) (v : Byte) (s : State) : Result :=
  let n := fromRole (s.params.roleMask r) v
  onlyOn r.inst s (ok n (s.write r.reg n))

/-- `VICGET` (R145), CIA2 only. -/
def execVicget (s : State) : Result := onlyOn .cia2 s (ok (vicGet (s.read Reg.pra)) s)

/-- `VICSET n` (R146), CIA2 only: a read-modify-write in one step. -/
def execVicset (n : Byte) (s : State) : Result :=
  let y := vicSet (s.read Reg.pra) n
  onlyOn .cia2 s (ok y (s.write Reg.pra y))

end Sys2Proof.Machine
end

