-- ==== Sys2Proof/Machine/RawAccess.lean ====
section
/-! DEFINITION. Raw register access: RD, WR (spec/40_raw_access.md). -/

namespace Sys2Proof.Machine

/-- `RD a` (R110): the byte as stored, no side effect. -/
def execRd (a : Reg) (s : State) : Result := ok (s.read a) s

/-- `WR a, v` (R111): the byte as given, no validation. -/
def execWr (a : Reg) (v : Byte) (s : State) : Result := ok 0x00 (s.write a v)

end Sys2Proof.Machine
end

