-- ==== Sys2Proof/Machine/Bcd.lean ====
section
/-! DEFINITION. BCD digits and the validity predicates of the time of day (R10, R12, R35, R172). -/

namespace Sys2Proof.Machine

/-- `hn(b) = b[7:4]` (R10). -/
def highNibble (b : Byte) : BitVec 4 := b.extractLsb' 4 4

/-- `ln(b) = b[3:0]` (R10). -/
def lowNibble (b : Byte) : BitVec 4 := b.extractLsb' 0 4

/-- `digit_ok(n)` (R12). -/
def digitOk (n : BitVec 4) : Bool := decide (n.toNat ≤ 9)

/-- `bcd_ok(b)` (R12). -/
def bcdOk (b : Byte) : Bool := digitOk (highNibble b) && digitOk (lowNibble b)

/-- `bcd_val(b)`: the number a BCD byte stands for, used in explanations only (R12). -/
def bcdVal (b : Byte) : Nat := 10 * (highNibble b).toNat + (lowNibble b).toNat

/-- `tenths_ok(t)` under each `P_TENTHS_RULE` (R35). -/
def tenthsOk (rule : TenthsRule) (t : Byte) : Bool :=
  match rule with
  | .lowNibble => digitOk (lowNibble t)
  | .bothNibbles => digitOk (lowNibble t) && digitOk (highNibble t)
  | .wholeByte => decide (t.toNat ≤ 0x09)

/-- `secmin_ok(b)` (R35). -/
def secminOk (b : Byte) : Bool := bcdOk b && decide (b.toNat ≤ 0x59)

/-- `h & 0x7F`: the hour without the AM/PM flag (R36). -/
def hourBits (h : Byte) : Byte := h &&& 0x7F

/-- `hour_ok(h)` (R35). -/
def hourOk (h : Byte) : Bool :=
  bcdOk (hourBits h) && decide (0x01 ≤ (hourBits h).toNat) && decide ((hourBits h).toNat ≤ 0x12)

/-- `tod_ok(h, m, s, t)` (R35). -/
def todOk (rule : TenthsRule) (h m sec t : Byte) : Bool :=
  hourOk h && secminOk m && secminOk sec && tenthsOk rule t

/-- The AM/PM flag, bit 7 of an hours byte (R36). -/
def isPm (h : Byte) : Bool := h.getLsbD 7

/-- The flag as a byte: `pm ? 0x80 : 0x00` (R172, R174). -/
def pmBit (pm : Bool) : Byte := if pm then 0x80 else 0x00

/-- The hours byte that `TSET` works on under each `P_HOUR_BIT7`: masked, or as it stands (R172). -/
def hourOperand (rule : HourBit7) (h : Byte) : Byte :=
  match rule with
  | .mask => hourBits h
  | .reject => h
  | .or => h

/-- What `TSET` tests on its hours operand under each `P_HOUR_BIT7` (R172). -/
def hourOperandOk (rule : HourBit7) (h : Byte) : Bool :=
  match rule with
  | .mask => hourOk (hourBits h)
  | .reject => !isPm h && hourOk h
  | .or => hourOk h

/-- `TSET` accepts its operands (R172). -/
def tsetAccepts (p : Params) (h m sec t : Byte) : Bool :=
  hourOperandOk p.hourBit7 h && secminOk m && secminOk sec && tenthsOk p.tenthsRule t

/-- The hours byte that a successful `TSET` stores (R172). -/
def tsetHours (rule : HourBit7) (h : Byte) (pm : Bool) : Byte := hourOperand rule h ||| pmBit pm

/-- The hours byte after `TSETPM`: bit 7 becomes `pm`, bits 6:0 stay (R174). -/
def withPm (h : Byte) (pm : Bool) : Byte := hourBits h ||| pmBit pm

end Sys2Proof.Machine
end

