-- ==== Sys2Proof/Machine/TimeOfDay.lean ====
section
/-! DEFINITION. Time-of-day operations: TVAL, TSET, TISPM, TSETPM, THOUR (spec/44_time_of_day.md). The rules write the
four fields as `x[8]` to `x[11]`; the model finds them through `TOD_ORDER` (R34; log 6). -/

namespace Sys2Proof.Machine

/-- The stored hours byte (R34). -/
def State.hours (s : State) : Byte := s.read s.params.todOrder.hours

/-- The stored minutes byte (R34). -/
def State.minutes (s : State) : Byte := s.read s.params.todOrder.minutes

/-- The stored seconds byte (R34). -/
def State.seconds (s : State) : Byte := s.read s.params.todOrder.seconds

/-- The stored tenths byte (R34). -/
def State.tenths (s : State) : Byte := s.read s.params.todOrder.tenths

/-- The stored time is valid (R35, R171). -/
def State.timeOk (s : State) : Bool := todOk s.params.tenthsRule s.hours s.minutes s.seconds s.tenths

/-- Write the hours byte. -/
def State.writeHours (s : State) (h : Byte) : State := s.write s.params.todOrder.hours h

/-- Write all four fields, as one step (R64, R172). -/
def State.writeTime (s : State) (h m sec t : Byte) : State :=
  let o := s.params.todOrder
  (((s.write o.hours h).write o.minutes m).write o.seconds sec).write o.tenths t

/-- `TVAL` (R171). -/
def execTval (s : State) : Result := ok (boolResult s.timeOk) s

/-- `TSET h, m, s, t, pm` (R172): all four bytes, or FAIL and none. -/
def execTset (h m sec t : Byte) (pm : Bool) (s : State) : Result :=
  if tsetAccepts s.params h m sec t then
    ok 0x01 (s.writeTime (tsetHours s.params.hourBit7 h pm) m sec t)
  else raiseFail .invalidBcd s

/-- `TISPM` (R173). -/
def execTispm (s : State) : Result := ok (boolResult (isPm s.hours)) s

/-- `TSETPM pm` (R174). -/
def execTsetpm (pm : Bool) (s : State) : Result := ok 0x00 (s.writeHours (withPm s.hours pm))

/-- `THOUR` (R175). -/
def execThour (s : State) : Result := ok (hourBits s.hours) s

end Sys2Proof.Machine
end

