-- ==== Sys2Proof/Machine/Dispatch.lean ====
section
/-! DEFINITION. One operation on one block: a call of the meaning of each constructor. -/

namespace Sys2Proof.Machine

def exec (i : Instr) (s : State) : Host.Outcome State Fault Refusal :=
  match i with
  -- raw access
  | .rd a => Sys2Proof.Machine.execRd a s
  | .wr a v => Sys2Proof.Machine.execWr a v s
  -- flag-set values
  | .ftrunc T v => Sys2Proof.Machine.execFtrunc T v s
  | .fexact T v => Sys2Proof.Machine.execFexact T v s
  | .funion T p q => Sys2Proof.Machine.execFunion T p q s
  | .finter T p q => Sys2Proof.Machine.execFinter T p q s
  | .fcompl T p => Sys2Proof.Machine.execFcompl T p s
  | .fcont T p q => Sys2Proof.Machine.execFcont T p q s
  -- port views
  | .pas r => Sys2Proof.Machine.execPas r s
  | .pfrom r v => Sys2Proof.Machine.execPfrom r v s
  | .vicget => Sys2Proof.Machine.execVicget s
  | .vicset n => Sys2Proof.Machine.execVicset n s
  -- direction presets
  | .dpreset p => Sys2Proof.Machine.execDpreset p s
  | .ddefault port => Sys2Proof.Machine.execDdefault port s
  -- time of day
  | .tval => Sys2Proof.Machine.execTval s
  | .tset h m sec t pm => Sys2Proof.Machine.execTset h m sec t pm s
  | .tispm => Sys2Proof.Machine.execTispm s
  | .tsetpm pm => Sys2Proof.Machine.execTsetpm pm s
  | .thour => Sys2Proof.Machine.execThour s

end Sys2Proof.Machine
end

