-- ==== Sys2Proof/Machine/Step.lean ====
section
/-! DEFINITION. One step of the machine: the requester presents what stands at `pc`, the block answers, `pc` advances
by one (R9, R44). -/

namespace Sys2Proof.Machine

/-- An operation word is decoded and performed; a reserved word is answered ILLEGAL (R85, R87); `rst` resets the
registers (R220); at the end of the sequence the run is over (R44). -/
def step (s : State) : Host.Outcome State Fault Refusal :=
  match s.fetch with
  | none => .fault .runEnded
  | some .rst => advanced (.next s.applyReset)
  | some (.op w) =>
    match decode w with
    | .ok i => advanced (exec i s)
    | .error _ => advanced (raiseIllegal s)

/-- `s` with the opcode table's word `w` as what the requester presents next (log 7, log 11). -/
def State.withFetchWord (s : State) (nbits w : Nat) : State := s.present (.op (tableWord nbits w))

end Sys2Proof.Machine
end

