-- ==== Sys2Proof/Machine/Pseudo.lean ====
section
/-! DEFINITION. What a requester makes of single operations: the 16-bit timer values (R33, R62) and the
pseudo-operations, each a fixed sequence of operations, as many steps as it has operations (R89; log 18). -/

namespace Sys2Proof.Machine

/-- One of the two timers. -/
inductive Timer where
  | A
  | B
deriving DecidableEq, Repr

/-- The first byte of a timer pair (R21, R33). -/
def Timer.first : Timer → Reg
  | .A => Reg.talo
  | .B => Reg.tblo

/-- The second byte of a timer pair (R21, R33). -/
def Timer.second : Timer → Reg
  | .A => Reg.tahi
  | .B => Reg.tbhi

/-- The 16-bit value of the bytes at the first and the second offset under `TIMER_ORDER` (R33). -/
def pairValue (order : TimerOrder) (first second : Byte) : BitVec 16 :=
  match order with
  | .lowFirst => second ++ first
  | .highFirst => first ++ second

/-- The byte of a 16-bit value that stands at the first offset under `TIMER_ORDER` (R89). -/
def pairFirst (order : TimerOrder) (v : BitVec 16) : Byte :=
  match order with
  | .lowFirst => v.extractLsb' 0 8
  | .highFirst => v.extractLsb' 8 8

/-- The byte of a 16-bit value that stands at the second offset under `TIMER_ORDER` (R89). -/
def pairSecond (order : TimerOrder) (v : BitVec 16) : Byte :=
  match order with
  | .lowFirst => v.extractLsb' 8 8
  | .highFirst => v.extractLsb' 0 8

/-- The 16-bit value of a timer as the registers hold it (R33). -/
def State.timerValue (s : State) (t : Timer) : BitVec 16 :=
  pairValue s.params.timerOrder (s.read t.first) (s.read t.second)

/-- The pseudo-operations (R89). -/
inductive Pseudo where
  | setam
  | setpm
  | rdt16 (t : Timer)
  | wrt16 (t : Timer) (v : BitVec 16)
  | tget
deriving DecidableEq, Repr

/-- The operations a pseudo-operation stands for (R89). -/
def Pseudo.expand (order : TimerOrder) : Pseudo → List Instr
  | .setam => [.tsetpm false]
  | .setpm => [.tsetpm true]
  | .rdt16 t => [.rd t.first, .rd t.second]
  | .wrt16 t v => [.wr t.first (pairFirst order v), .wr t.second (pairSecond order v)]
  | .tget => [.rd 0x0B, .rd 0x0A, .rd 0x09, .rd 0x08]

/-- What the requester presents for a list of operations: their words, in order (R44). -/
def requestsOf (is : List Instr) : List Request := is.map fun i => .op (encode i)

end Sys2Proof.Machine
end

