-- ==== Sys2Proof/Safety.lean ====
section
/-! DEFINITION. The vocabulary of the claims: what it is for an operation to be performed, to fail or to be illegal
with everything else unchanged; the cells an operation reaches (R61); the time operands that are valid, in the spec's
second form (R35); the opcode table's own reading of legality (R90); and the machine's invariant. -/

namespace Sys2Proof.Machine

/-! ## Presented words -/

/-- The word of six bytes, `op` first (R80). -/
def word6 (op a b c d e : Byte) : OpBits := op ++ a ++ b ++ c ++ d ++ e

/-- The requester presents the operation word `w` next. -/
abbrev Presents (s : State) (w : OpBits) : Prop := s.prog[s.pc]? = some (.op w)

/-- Every byte of the list is 0x00. -/
abbrev AllZero (bs : List Byte) : Prop := ∀ x ∈ bs, x = 0x00

/-! ## What one operation does -/

/-- `x` answers a next state `t` with response `(st, res)`, in which exactly the registers of `written` were written,
each with the byte beside it, every other register holds what it held in `s`, the parameters and the requester's
sequence are those of `s`, and the requester's index is `pc'`. -/
def Does (x : Result) (s : State) (st : Status) (res : Byte) (written : List (Reg × Byte)) (pc' : Nat) :
    Prop :=
  ∃ t : State, x = .next t ∧ t.resp = some ⟨st, res⟩ ∧
    (∀ w ∈ written, t.read w.1 = w.2) ∧
    (∀ r, r ∉ written.map Prod.fst → t.read r = s.read r) ∧
    t.params = s.params ∧ t.prog = s.prog ∧ t.pc = pc'

/-- `exec i s` is performed with status OK and writes exactly `written`. -/
def Performs (i : Instr) (s : State) (res : Byte) (written : List (Reg × Byte)) : Prop :=
  Does (exec i s) s .ok res written s.pc

/-- `exec i s` answers FAIL, result 0x00, and changes no register (R200). -/
def Fails (i : Instr) (s : State) : Prop := Does (exec i s) s .fail 0x00 [] s.pc

/-- `exec i s` answers ILLEGAL, result 0x00, and changes no register (R200). -/
def IsIllegal (i : Instr) (s : State) : Prop := Does (exec i s) s .illegal 0x00 [] s.pc

/-- The step from `s` ends OK, writes exactly `written`, and advances the requester by one. -/
def StepOk (s : State) (res : Byte) (written : List (Reg × Byte)) : Prop :=
  Does (step s) s .ok res written (s.pc + 1)

/-- The step from `s` ends FAIL and changes nothing but the response and the requester's index. -/
def StepFail (s : State) : Prop := Does (step s) s .fail 0x00 [] (s.pc + 1)

/-- The step from `s` ends ILLEGAL and changes nothing but the response and the requester's index. -/
def StepIllegal (s : State) : Prop := Does (step s) s .illegal 0x00 [] (s.pc + 1)

/-! ## Cells (R61) -/

/-- The four registers of the time of day. -/
def todCells (p : Params) : List Reg :=
  [p.todOrder.hours, p.todOrder.minutes, p.todOrder.seconds, p.todOrder.tenths]

/-- The registers an operation's response or effect can depend on (R61). -/
def cellsRead (p : Params) : Instr → List Reg
  | .rd a => [a]
  | .pas r => [r.reg]
  | .vicget => [Reg.pra]
  | .vicset _ => [Reg.pra]
  | .tval => todCells p
  | .tispm => [p.todOrder.hours]
  | .tsetpm _ => [p.todOrder.hours]
  | .thour => [p.todOrder.hours]
  | .wr _ _ | .ftrunc _ _ | .fexact _ _ | .funion _ _ _ | .finter _ _ _ | .fcompl _ _ | .fcont _ _ _
  | .pfrom _ _ | .dpreset _ | .ddefault _ | .tset _ _ _ _ _ => []

/-- The registers an operation can write (R61). -/
def cellsWritten (p : Params) : Instr → List Reg
  | .wr a _ => [a]
  | .pfrom r _ => [r.reg]
  | .vicset _ => [Reg.pra]
  | .dpreset n => [(p.preset n).target.ddr]
  | .ddefault port => [port.ddr]
  | .tset _ _ _ _ _ => todCells p
  | .tsetpm _ => [p.todOrder.hours]
  | .rd _ | .ftrunc _ _ | .fexact _ _ | .funion _ _ _ | .finter _ _ _ | .fcompl _ _ | .fcont _ _ _
  | .pas _ | .vicget | .tval | .tispm | .thour => []

/-! ## Valid times, in the second form of R35 -/

/-- The low seven bits are one of the twelve BCD hours (R35). -/
abbrev ValidHour (h : Byte) : Prop :=
  h.toNat % 128 ∈ [0x01, 0x02, 0x03, 0x04, 0x05, 0x06, 0x07, 0x08, 0x09, 0x10, 0x11, 0x12]

/-- High nibble at most 5, low nibble at most 9 (R35). -/
abbrev ValidSecMin (b : Byte) : Prop := b.toNat / 16 ≤ 5 ∧ b.toNat % 16 ≤ 9

/-- The tenths predicate under each `P_TENTHS_RULE` (R35). -/
abbrev ValidTenths (rule : TenthsRule) (t : Byte) : Prop :=
  (rule = .lowNibble → t.toNat % 16 ≤ 9) ∧
  (rule = .bothNibbles → t.toNat % 16 ≤ 9 ∧ t.toNat / 16 ≤ 9) ∧
  (rule = .wholeByte → t.toNat ≤ 9)

/-- `tod_ok` (R35). -/
abbrev ValidTime (rule : TenthsRule) (h m sec t : Byte) : Prop :=
  ValidHour h ∧ ValidSecMin m ∧ ValidSecMin sec ∧ ValidTenths rule t

/-- The stored time is valid. -/
abbrev StoredTimeValid (s : State) : Prop :=
  ValidTime s.params.tenthsRule (s.read s.params.todOrder.hours) (s.read s.params.todOrder.minutes)
    (s.read s.params.todOrder.seconds) (s.read s.params.todOrder.tenths)

/-- The operands `TSET` accepts: a valid time, and under `P_HOUR_BIT7 = reject` no bit 7 in the hours (R172). -/
abbrev TsetOperandsValid (p : Params) (h m sec t : Byte) : Prop :=
  (p.hourBit7 = .reject → h.toNat < 128) ∧ ValidTime p.tenthsRule h m sec t

/-- The hours byte that a successful `TSET` stores: bits 6:0 are the operand's; bit 7 is `pm`, or, under
`P_HOUR_BIT7 = or`, `pm` or the operand's bit 7 (R172). -/
abbrev StoredHours (p : Params) (h : Byte) (pm : Bool) (stored : Byte) : Prop :=
  (∀ k, k < 7 → stored.getLsbD k = h.getLsbD k) ∧
  (stored.getLsbD 7 = true ↔ pm = true ∨ (p.hourBit7 = .or ∧ h.getLsbD 7 = true))

/-! ## The opcode table (R90) -/

/-- A row of opcode_table.json: its `match` and `mask`, and what they do not express: the range of the operand in
byte `a`, given its number, and the instantiations the row exists on. -/
structure TableRow where
  opcode : Opcode
  pattern : OpBits
  mask : OpBits
  legalA : Inst → Nat → Bool
  onInst : Inst → Bool

/-- No restriction beyond the mask. -/
def anyA : Inst → Nat → Bool := fun _ _ => true

/-- The `legal` entry of a `type` field. -/
def typeA : Inst → Nat → Bool := fun _ n => decide (n ≤ 0x09)

/-- The `legal` entry of a `role` field. -/
def roleA : Inst → Nat → Bool
  | .cia1, n => decide (0x02 ≤ n ∧ n ≤ 0x05)
  | .cia2, n => decide (0x06 ≤ n ∧ n ≤ 0x09)

/-- The `legal` entry of a `preset` field. -/
def presetA : Inst → Nat → Bool
  | .cia1, n => decide (n ≤ 0x03)
  | .cia2, n => decide (0x04 ≤ n ∧ n ≤ 0x06)

def bothInst : Inst → Bool := fun _ => true

/-- The `constraint` entry of `VICGET` and `VICSET`. -/
def cia2Only : Inst → Bool
  | .cia1 => false
  | .cia2 => true

/-- The nineteen rows of opcode_table.json, in its order. -/
def tableRows : List TableRow :=
  [⟨.rd, 0x000000000000, 0xFFF0FFFFFFFF, anyA, bothInst⟩,
   ⟨.wr, 0x010000000000, 0xFFF000FFFFFF, anyA, bothInst⟩,
   ⟨.ftrunc, 0x100000000000, 0xFF0000FFFFFF, typeA, bothInst⟩,
   ⟨.fexact, 0x110000000000, 0xFF0000FFFFFF, typeA, bothInst⟩,
   ⟨.funion, 0x120000000000, 0xFF000000FFFF, typeA, bothInst⟩,
   ⟨.finter, 0x130000000000, 0xFF000000FFFF, typeA, bothInst⟩,
   ⟨.fcompl, 0x140000000000, 0xFF0000FFFFFF, typeA, bothInst⟩,
   ⟨.fcont, 0x150000000000, 0xFF000000FFFF, typeA, bothInst⟩,
   ⟨.pas, 0x200000000000, 0xFF00FFFFFFFF, roleA, bothInst⟩,
   ⟨.pfrom, 0x210000000000, 0xFF0000FFFFFF, roleA, bothInst⟩] ++
  [⟨.vicget, 0x220000000000, 0xFFFFFFFFFFFF, anyA, cia2Only⟩,
   ⟨.vicset, 0x230000000000, 0xFF00FFFFFFFF, anyA, cia2Only⟩,
   ⟨.dpreset, 0x300000000000, 0xFF00FFFFFFFF, presetA, bothInst⟩,
   ⟨.ddefault, 0x310000000000, 0xFFFEFFFFFFFF, anyA, bothInst⟩,
   ⟨.tval, 0x400000000000, 0xFFFFFFFFFFFF, anyA, bothInst⟩,
   ⟨.tset, 0x410000000000, 0xFF00000000FE, anyA, bothInst⟩,
   ⟨.tispm, 0x420000000000, 0xFFFFFFFFFFFF, anyA, bothInst⟩,
   ⟨.tsetpm, 0x430000000000, 0xFFFEFFFFFFFF, anyA, bothInst⟩,
   ⟨.thour, 0x440000000000, 0xFFFFFFFFFFFF, anyA, bothInst⟩]

/-- `w & mask == match` (R90). -/
def TableRow.Matches (row : TableRow) (w : OpBits) : Prop := w &&& row.mask = row.pattern

/-- The word is legal for the row on a block with `INST = inst` (R90). -/
def TableRow.Legal (row : TableRow) (inst : Inst) (w : OpBits) : Prop :=
  row.Matches w ∧ row.legalA inst (w.extractLsb' 32 8).toNat = true ∧ row.onInst inst = true

/-- The word is legal for some row; otherwise it is reserved (R85, R90). -/
def LegalWord (inst : Inst) (w : OpBits) : Prop := ∃ row ∈ tableRows, row.Legal inst w

/-! ## The invariant -/

/-- The status and the result fit together: with FAIL and ILLEGAL the result is 0x00 (R81). -/
def ResponseWf (r : Option Response) : Prop := ∀ x, r = some x → x.st ≠ .ok → x.res = 0x00

/-- What holds of a machine from reset on: `TOD_ORDER` is a permutation (R7), the requester's index is within its
sequence (R44), and the response is one the block can give (R81). -/
def Inv (s : State) : Prop :=
  s.params.wf = true ∧ s.pc ≤ s.prog.length ∧ ResponseWf s.resp

end Sys2Proof.Machine
end

