-- ==== Sys2Proof/Certificates/Slice0/Obligations.lean ====
section
/-! DEFINITION. The statements about the model, for the provers. One statement per operation says its rule on both
levels: what `exec` does with the operation, and what a step does with every word that has the operation's opcode
byte, reserved ones included. The statements after them are about the machine as a whole. -/

open Sys2Proof Sys2Proof.Machine

/-! ## Raw access (spec/40_raw_access.md) -/

/-- R110: `RD a` answers the stored byte, whole, and changes no register; its word is reserved exactly when the
offset is above 0x0F or a byte the format does not use is not 0x00. -/
def Obligations.RdAnswersTheStoredByte : Prop :=
  (∀ (s : State) (a : Reg), Performs (.rd a) s (s.read a) []) ∧
  ∀ (s : State) (a b c d e : Byte), Presents s (word6 0x00 a b c d e) →
    (∀ h : a.toNat < 16, AllZero [b, c, d, e] → StepOk s (s.read ⟨a.toNat, h⟩) []) ∧
    (16 ≤ a.toNat ∨ ¬ AllZero [b, c, d, e] → StepIllegal s)

/-- R111: `WR a, v` stores `v` whole in `x[a]` and changes no other register. -/
def Obligations.WrStoresTheByte : Prop :=
  (∀ (s : State) (a : Reg) (v : Byte), Performs (.wr a v) s 0x00 [(a, v)]) ∧
  ∀ (s : State) (a v c d e : Byte), Presents s (word6 0x01 a v c d e) →
    (∀ h : a.toNat < 16, AllZero [c, d, e] → StepOk s 0x00 [(⟨a.toNat, h⟩, v)]) ∧
    (16 ≤ a.toNat ∨ ¬ AllZero [c, d, e] → StepIllegal s)

/-- R112: from the step of a `WR a, v` on, through any number of words none of which writes `x[a]`, a `RD a` answers
`v`. A word writes no `x[a]` when it is reserved on this instantiation, when its operation cannot write that register,
or when it is a `TSET` that fails. -/
def Obligations.RawRoundTripLastsUntilTheNextWrite : Prop :=
  ∀ (s : State) (a : Reg) (v : Byte) (between : List OpBits) (rest : List Request),
    s.prog.drop s.pc =
      .op (encode (.wr a v)) :: (between.map Request.op ++ .op (encode (.rd a)) :: rest) →
    (∀ w ∈ between, ∀ i, decodeOn s.params.inst w = .ok i → a ∉ cellsWritten s.params i ∨
      ∃ h m sec t pm, i = .tset h m sec t pm ∧ ¬ TsetOperandsValid s.params h m sec t) →
    ∃ t : State, Host.Core.run core (between.length + 2) s = .next t ∧
      t.resp = some ⟨.ok, v⟩ ∧ t.read a = v

/-! ## Flag-set values (spec/41_flagset_ops.md) -/

/-- R121: `FTRUNC T, v` answers `v & K[T]`. -/
def Obligations.FtruncAnswersTheKnownBits : Prop :=
  (∀ (s : State) (T : FlagType) (v : Byte), Performs (.ftrunc T v) s (v &&& s.params.mask T) []) ∧
  ∀ (s : State) (a v c d e : Byte), Presents s (word6 0x10 a v c d e) →
    (∀ T : FlagType, a = T.code → AllZero [c, d, e] → StepOk s (v &&& s.params.mask T) []) ∧
    (9 < a.toNat ∨ ¬ AllZero [c, d, e] → StepIllegal s)

/-- R122: `FEXACT T, v` answers `v` when `v` has no bit outside `K[T]`, and FAIL otherwise. -/
def Obligations.FexactAnswersOrFails : Prop :=
  (∀ (s : State) (T : FlagType) (v : Byte), v &&& ~~~(s.params.mask T) = 0 →
    Performs (.fexact T v) s v []) ∧
  (∀ (s : State) (T : FlagType) (v : Byte), v &&& ~~~(s.params.mask T) ≠ 0 → Fails (.fexact T v) s) ∧
  ∀ (s : State) (a v c d e : Byte), Presents s (word6 0x11 a v c d e) →
    (∀ T : FlagType, a = T.code → AllZero [c, d, e] → v &&& ~~~(s.params.mask T) = 0 → StepOk s v []) ∧
    (∀ T : FlagType, a = T.code → AllZero [c, d, e] → v &&& ~~~(s.params.mask T) ≠ 0 → StepFail s) ∧
    (9 < a.toNat ∨ ¬ AllZero [c, d, e] → StepIllegal s)

/-- R123: `FUNION T, p, q` answers `(p | q) & K[T]`. -/
def Obligations.FunionAnswersTheUnion : Prop :=
  (∀ (s : State) (T : FlagType) (p q : Byte),
    Performs (.funion T p q) s ((p ||| q) &&& s.params.mask T) []) ∧
  ∀ (s : State) (a p q d e : Byte), Presents s (word6 0x12 a p q d e) →
    (∀ T : FlagType, a = T.code → AllZero [d, e] → StepOk s ((p ||| q) &&& s.params.mask T) []) ∧
    (9 < a.toNat ∨ ¬ AllZero [d, e] → StepIllegal s)

/-- R124: `FINTER T, p, q` answers `p & q & K[T]`. -/
def Obligations.FinterAnswersTheIntersection : Prop :=
  (∀ (s : State) (T : FlagType) (p q : Byte),
    Performs (.finter T p q) s (p &&& q &&& s.params.mask T) []) ∧
  ∀ (s : State) (a p q d e : Byte), Presents s (word6 0x13 a p q d e) →
    (∀ T : FlagType, a = T.code → AllZero [d, e] → StepOk s (p &&& q &&& s.params.mask T) []) ∧
    (9 < a.toNat ∨ ¬ AllZero [d, e] → StepIllegal s)

/-- R125: `FCOMPL T, p` answers `~p & K[T]`. -/
def Obligations.FcomplAnswersTheComplement : Prop :=
  (∀ (s : State) (T : FlagType) (p : Byte), Performs (.fcompl T p) s (~~~p &&& s.params.mask T) []) ∧
  ∀ (s : State) (a p c d e : Byte), Presents s (word6 0x14 a p c d e) →
    (∀ T : FlagType, a = T.code → AllZero [c, d, e] → StepOk s (~~~p &&& s.params.mask T) []) ∧
    (9 < a.toNat ∨ ¬ AllZero [c, d, e] → StepIllegal s)

/-- R126: `FCONT T, p, q` answers whether `p` contains `q`, both truncated to `K[T]`. -/
def Obligations.FcontAnswersContainment : Prop :=
  (∀ (s : State) (T : FlagType) (p q : Byte), Performs (.fcont T p q) s
    (if (p &&& s.params.mask T) &&& (q &&& s.params.mask T) = q &&& s.params.mask T then 0x01 else 0x00) []) ∧
  ∀ (s : State) (a p q d e : Byte), Presents s (word6 0x15 a p q d e) →
    (∀ T : FlagType, a = T.code → AllZero [d, e] → StepOk s
      (if (p &&& s.params.mask T) &&& (q &&& s.params.mask T) = q &&& s.params.mask T then 0x01 else 0x00) []) ∧
    (9 < a.toNat ∨ ¬ AllZero [d, e] → StepIllegal s)

/-- R127: each of the six value operations gives one response whatever the registers, the requester and the response
before hold, as long as `K` is the same, and leaves all sixteen registers unchanged. -/
def Obligations.FlagSetOperationsArePureValues : Prop :=
  ∀ (i : Instr) (s t s' : State),
    ((∃ T v, i = .ftrunc T v) ∨ (∃ T v, i = .fexact T v) ∨ (∃ T p q, i = .funion T p q) ∨
      (∃ T p q, i = .finter T p q) ∨ (∃ T p, i = .fcompl T p) ∨ (∃ T p q, i = .fcont T p q)) →
    s.params.known = t.params.known → exec i s = .next s' →
    (∀ r, s'.read r = s.read r) ∧
    ∃ t', exec i t = .next t' ∧ t'.resp = s'.resp ∧ ∀ r, t'.read r = t.read r

/-! ## Port views (spec/42_port_views.md) -/

/-- R142: `PAS r` answers the port byte truncated to the role's mask. -/
def Obligations.PasAnswersTheView : Prop :=
  (∀ (s : State) (r : Role), r.inst = s.params.inst →
    Performs (.pas r) s (s.read r.reg &&& s.params.mask r.type) []) ∧
  (∀ (s : State) (r : Role), r.inst ≠ s.params.inst → IsIllegal (.pas r) s) ∧
  ∀ (s : State) (a b c d e : Byte), Presents s (word6 0x20 a b c d e) →
    (∀ r : Role, a = r.code → r.inst = s.params.inst → AllZero [b, c, d, e] →
      StepOk s (s.read r.reg &&& s.params.mask r.type) []) ∧
    (a.toNat < 2 ∨ 9 < a.toNat ∨ (∃ r : Role, a = r.code ∧ r.inst ≠ s.params.inst) ∨
      ¬ AllZero [b, c, d, e] → StepIllegal s)

/-- R143: `PFROM r, v` replaces the whole port byte by `v & K[r]`. -/
def Obligations.PfromReplacesThePortByte : Prop :=
  (∀ (s : State) (r : Role) (v : Byte), r.inst = s.params.inst →
    Performs (.pfrom r v) s (v &&& s.params.mask r.type) [(r.reg, v &&& s.params.mask r.type)]) ∧
  (∀ (s : State) (r : Role) (v : Byte), r.inst ≠ s.params.inst → IsIllegal (.pfrom r v) s) ∧
  ∀ (s : State) (a v c d e : Byte), Presents s (word6 0x21 a v c d e) →
    (∀ r : Role, a = r.code → r.inst = s.params.inst → AllZero [c, d, e] →
      StepOk s (v &&& s.params.mask r.type) [(r.reg, v &&& s.params.mask r.type)]) ∧
    (a.toNat < 2 ∨ 9 < a.toNat ∨ (∃ r : Role, a = r.code ∧ r.inst ≠ s.params.inst) ∨
      ¬ AllZero [c, d, e] → StepIllegal s)

/-- R145: `VICGET` answers bits 1:0 of `x[0]` on CIA2 and is ILLEGAL on CIA1. -/
def Obligations.VicgetAnswersTheBankBits : Prop :=
  (∀ s : State, s.params.inst = .cia2 → Performs .vicget s (s.read 0 &&& 0x03) []) ∧
  (∀ s : State, s.params.inst = .cia1 → IsIllegal .vicget s) ∧
  ∀ (s : State) (a b c d e : Byte), Presents s (word6 0x22 a b c d e) →
    (s.params.inst = .cia2 → AllZero [a, b, c, d, e] → StepOk s (s.read 0 &&& 0x03) []) ∧
    (s.params.inst = .cia1 ∨ ¬ AllZero [a, b, c, d, e] → StepIllegal s)

/-- R146: `VICSET n` replaces bits 1:0 of `x[0]` by those of `n`, for every byte `n`, and answers the new byte, on
CIA2; it is ILLEGAL on CIA1. -/
def Obligations.VicsetReplacesTheBankBits : Prop :=
  (∀ (s : State) (n : Byte), s.params.inst = .cia2 →
    Performs (.vicset n) s ((s.read 0 &&& 0xFC) ||| (n &&& 0x03))
      [(0, (s.read 0 &&& 0xFC) ||| (n &&& 0x03))]) ∧
  (∀ (s : State) (n : Byte), s.params.inst = .cia1 → IsIllegal (.vicset n) s) ∧
  ∀ (s : State) (n b c d e : Byte), Presents s (word6 0x23 n b c d e) →
    (s.params.inst = .cia2 → AllZero [b, c, d, e] →
      StepOk s ((s.read 0 &&& 0xFC) ||| (n &&& 0x03)) [(0, (s.read 0 &&& 0xFC) ||| (n &&& 0x03))]) ∧
    (s.params.inst = .cia1 ∨ ¬ AllZero [b, c, d, e] → StepIllegal s)

/-- R144: `VICSET n` makes `x[0]` the byte `(x[0] & 0xFC) | (n & 0x03)`: bits 7:2 are what they were, and `VICGET`
answers `n & 0b11`, for every byte before and every `n`. Both use the fixed mask 0x03; under `K[VIC_A] = 0x03`
`VICGET` answers what `PAS VIC_A` answers. -/
def Obligations.VicsetKeepsTheOtherBitsAndVicgetReadsItBack : Prop :=
  (∀ (s : State) (n : Byte), s.params.inst = .cia2 →
    ∃ t, exec (.vicset n) s = .next t ∧ t.read 0 = (s.read 0 &&& 0xFC) ||| (n &&& 0x03) ∧
      (∀ k, 2 ≤ k → k < 8 → (t.read 0).getLsbD k = (s.read 0).getLsbD k) ∧
      ∃ u b, exec .vicget t = .next u ∧ u.resp = some ⟨.ok, b⟩ ∧ b.toNat = n.toNat % 4 ∧
        ∀ r, u.read r = t.read r) ∧
  ∀ s : State, s.params.inst = .cia2 → s.params.mask .vicA = 0x03 →
    Performs .vicget s (s.read 0 &&& 0x03) [] ∧ Performs (.pas .vicA) s (s.read 0 &&& 0x03) []

/-- R147: two roles of one port asked one after the other are both computed from the same stored byte, each within
its own mask, and the port is unchanged. Under the default masks the only two roles of one port with disjoint masks
are `SER_A` and `VIC_A`; the keyboard and joystick roles overlap in bits 4:0, `USR_B` and `RS232_B` in 0xDF. -/
def Obligations.ViewsOfOnePortAreIndependent : Prop :=
  (∀ (s : State) (r1 r2 : Role), r1.inst = s.params.inst → r2.inst = s.params.inst → r1.port = r2.port →
    ∃ t u b1 b2, exec (.pas r1) s = .next t ∧ exec (.pas r2) t = .next u ∧
      t.resp = some ⟨.ok, b1⟩ ∧ u.resp = some ⟨.ok, b2⟩ ∧
      (∀ k, b1.getLsbD k = ((s.read r1.reg).getLsbD k && (s.params.mask r1.type).getLsbD k)) ∧
      (∀ k, b2.getLsbD k = ((s.read r1.reg).getLsbD k && (s.params.mask r2.type).getLsbD k)) ∧
      ∀ r, u.read r = s.read r) ∧
  ∀ (inst : Inst) (r1 r2 : Role), r1.inst = inst → r2.inst = inst → r1.port = r2.port → r1 ≠ r2 →
    (Params.default inst).mask r1.type &&& (Params.default inst).mask r2.type =
      (if r1 = .serA ∨ r1 = .vicA then 0x00 else if inst = .cia1 then 0x1F else 0xDF)

/-- R148: `PAS r` after `PFROM r, v` answers `v & K[r]`, and storing a port's own view back leaves its byte unchanged
exactly when it had no bit outside the mask. -/
def Obligations.ViewRoundTripKeepsTheMaskOnly : Prop :=
  (∀ (s : State) (r : Role) (v : Byte), r.inst = s.params.inst →
    ∃ t, exec (.pfrom r v) s = .next t ∧ Performs (.pas r) t (v &&& s.params.mask r.type) []) ∧
  ∀ (s : State) (r : Role), r.inst = s.params.inst →
    ∃ t b u, exec (.pas r) s = .next t ∧ t.resp = some ⟨.ok, b⟩ ∧ exec (.pfrom r b) t = .next u ∧
      u.read r.reg = s.read r.reg &&& s.params.mask r.type ∧
      (u.read r.reg = s.read r.reg ↔ s.read r.reg &&& ~~~(s.params.mask r.type) = 0)

/-! ## Direction presets (spec/43_direction_presets.md) -/

/-- R160: `DPRESET p` stores the preset's value in its direction register. -/
def Obligations.DpresetLoadsThePreset : Prop :=
  (∀ (s : State) (p : Preset), p.inst = s.params.inst →
    Performs (.dpreset p) s (s.params.preset p).value
      [((s.params.preset p).target.ddr, (s.params.preset p).value)]) ∧
  (∀ (s : State) (p : Preset), p.inst ≠ s.params.inst → IsIllegal (.dpreset p) s) ∧
  ∀ (s : State) (a b c d e : Byte), Presents s (word6 0x30 a b c d e) →
    (∀ p : Preset, a = p.code → p.inst = s.params.inst → AllZero [b, c, d, e] →
      StepOk s (s.params.preset p).value
        [((s.params.preset p).target.ddr, (s.params.preset p).value)]) ∧
    (6 < a.toNat ∨ (∃ p : Preset, a = p.code ∧ p.inst ≠ s.params.inst) ∨ ¬ AllZero [b, c, d, e] →
      StepIllegal s)

/-- R161: `DDEFAULT` stores the default of the selected port and of the block's instantiation in `x[2]` or `x[3]`. -/
def Obligations.DdefaultLoadsTheDefault : Prop :=
  (∀ (s : State), s.params.inst = .cia1 →
    Performs (.ddefault .A) s s.params.ddrDefaults.cia1A [(2, s.params.ddrDefaults.cia1A)] ∧
    Performs (.ddefault .B) s s.params.ddrDefaults.cia1B [(3, s.params.ddrDefaults.cia1B)]) ∧
  (∀ (s : State), s.params.inst = .cia2 →
    Performs (.ddefault .A) s s.params.ddrDefaults.cia2A [(2, s.params.ddrDefaults.cia2A)] ∧
    Performs (.ddefault .B) s s.params.ddrDefaults.cia2B [(3, s.params.ddrDefaults.cia2B)]) ∧
  ∀ (s : State) (a b c d e : Byte), Presents s (word6 0x31 a b c d e) →
    (s.params.inst = .cia1 → a = 0 → AllZero [b, c, d, e] →
      StepOk s s.params.ddrDefaults.cia1A [(2, s.params.ddrDefaults.cia1A)]) ∧
    (s.params.inst = .cia1 → a = 1 → AllZero [b, c, d, e] →
      StepOk s s.params.ddrDefaults.cia1B [(3, s.params.ddrDefaults.cia1B)]) ∧
    (s.params.inst = .cia2 → a = 0 → AllZero [b, c, d, e] →
      StepOk s s.params.ddrDefaults.cia2A [(2, s.params.ddrDefaults.cia2A)]) ∧
    (s.params.inst = .cia2 → a = 1 → AllZero [b, c, d, e] →
      StepOk s s.params.ddrDefaults.cia2B [(3, s.params.ddrDefaults.cia2B)]) ∧
    (1 < a.toNat ∨ ¬ AllZero [b, c, d, e] → StepIllegal s)

/-- R163: the direction registers have no effect on any other operation. Of two states that differ in `x[2]` and
`x[3]` alone, every operation but a `RD` of one of the two gives the same response and the same other registers. -/
def Obligations.DirectionRegistersInfluenceNothingElse : Prop :=
  ∀ (i : Instr) (s t s' : State), s.params.wf = true → i ≠ .rd 2 → i ≠ .rd 3 →
    t.params = s.params → (∀ r, r ≠ 2 → r ≠ 3 → t.read r = s.read r) →
    exec i s = .next s' →
    ∃ t', exec i t = .next t' ∧ t'.resp = s'.resp ∧ ∀ r, r ≠ 2 → r ≠ 3 → t'.read r = s'.read r

/-! ## Time of day (spec/44_time_of_day.md)

The rules write the four fields as `x[8]` to `x[11]`. The statements are about the registers that `TOD_ORDER` names, at
every `TOD_ORDER`: that is the model's own reading (log 6, DEDUCED), and under the default order the two are the same. -/

/-- R171: `TVAL` answers whether the four stored fields are a valid time, read through `TOD_ORDER` (log 6). -/
def Obligations.TvalReportsValidity : Prop :=
  (∀ s : State, StoredTimeValid s → Performs .tval s 0x01 []) ∧
  (∀ s : State, ¬ StoredTimeValid s → Performs .tval s 0x00 []) ∧
  ∀ (s : State) (a b c d e : Byte), Presents s (word6 0x40 a b c d e) →
    (AllZero [a, b, c, d, e] → StoredTimeValid s → StepOk s 0x01 []) ∧
    (AllZero [a, b, c, d, e] → ¬ StoredTimeValid s → StepOk s 0x00 []) ∧
    (¬ AllZero [a, b, c, d, e] → StepIllegal s)

/-- R172: `TSET` writes all four fields, where `TOD_ORDER` puts them (log 6), when its operands are valid and none when
they are not, under each `P_HOUR_BIT7` and each `P_TENTHS_RULE`; its word is reserved exactly when `pm` is above
0x01. -/
def Obligations.TsetWritesAllFourFieldsOrNone : Prop :=
  (∀ (s : State) (h m sec t : Byte) (pm : Bool), s.params.wf = true →
    TsetOperandsValid s.params h m sec t →
    ∃ hours, StoredHours s.params h pm hours ∧ Performs (.tset h m sec t pm) s 0x01
      [(s.params.todOrder.hours, hours), (s.params.todOrder.minutes, m),
       (s.params.todOrder.seconds, sec), (s.params.todOrder.tenths, t)]) ∧
  (∀ (s : State) (h m sec t : Byte) (pm : Bool), ¬ TsetOperandsValid s.params h m sec t →
    Fails (.tset h m sec t pm) s) ∧
  ∀ (s : State) (h m sec t e : Byte), Presents s (word6 0x41 h m sec t e) →
    (∀ pm : Bool, e = (if pm then 0x01 else 0x00) → s.params.wf = true →
      TsetOperandsValid s.params h m sec t →
      ∃ hours, StoredHours s.params h pm hours ∧ StepOk s 0x01
        [(s.params.todOrder.hours, hours), (s.params.todOrder.minutes, m),
         (s.params.todOrder.seconds, sec), (s.params.todOrder.tenths, t)]) ∧
    (e.toNat ≤ 1 → ¬ TsetOperandsValid s.params h m sec t → StepFail s) ∧
    (1 < e.toNat → StepIllegal s)

/-- R173: `TISPM` answers bit 7 of the hours byte, read through `TOD_ORDER` (log 6). -/
def Obligations.TispmAnswersBitSeven : Prop :=
  (∀ s : State, Performs .tispm s
    (if (s.read s.params.todOrder.hours).getLsbD 7 then 0x01 else 0x00) []) ∧
  ∀ (s : State) (a b c d e : Byte), Presents s (word6 0x42 a b c d e) →
    (AllZero [a, b, c, d, e] →
      StepOk s (if (s.read s.params.todOrder.hours).getLsbD 7 then 0x01 else 0x00) []) ∧
    (¬ AllZero [a, b, c, d, e] → StepIllegal s)

/-- R174: `TSETPM pm` sets bit 7 of the hours byte, found through `TOD_ORDER` (log 6), to `pm` and changes nothing
else. -/
def Obligations.TsetpmSetsBitSeven : Prop :=
  (∀ (s : State) (pm : Bool), Performs (.tsetpm pm) s 0x00
    [(s.params.todOrder.hours,
      (s.read s.params.todOrder.hours &&& 0x7F) ||| (if pm then 0x80 else 0x00))]) ∧
  ∀ (s : State) (a b c d e : Byte), Presents s (word6 0x43 a b c d e) →
    (∀ pm : Bool, a = (if pm then 0x01 else 0x00) → AllZero [b, c, d, e] → StepOk s 0x00
      [(s.params.todOrder.hours,
        (s.read s.params.todOrder.hours &&& 0x7F) ||| (if pm then 0x80 else 0x00))]) ∧
    (1 < a.toNat ∨ ¬ AllZero [b, c, d, e] → StepIllegal s)

/-- R175: `THOUR` answers the hours byte, read through `TOD_ORDER` (log 6), with bit 7 masked off. -/
def Obligations.ThourAnswersTheHourWithoutTheFlag : Prop :=
  (∀ s : State, Performs .thour s (s.read s.params.todOrder.hours &&& 0x7F) []) ∧
  ∀ (s : State) (a b c d e : Byte), Presents s (word6 0x44 a b c d e) →
    (AllZero [a, b, c, d, e] → StepOk s (s.read s.params.todOrder.hours &&& 0x7F) []) ∧
    (¬ AllZero [a, b, c, d, e] → StepIllegal s)

/-- R178: after a successful `TSET` under `P_HOUR_BIT7 = mask`, `THOUR`, `TISPM`, `TVAL` and the three raw reads
answer what was set; `TSETPM` changes the flag and neither the hour nor the validity. R178 is an inference of the
spec, and the fields are those of every `TOD_ORDER` (log 6). -/
def Obligations.QueriesAnswerWhatTsetSet : Prop :=
  (∀ (s : State) (h m sec t : Byte) (pm : Bool), s.params.wf = true → s.params.hourBit7 = .mask →
    TsetOperandsValid s.params h m sec t →
    ∃ u, exec (.tset h m sec t pm) s = .next u ∧
      Performs .thour u (h &&& 0x7F) [] ∧
      Performs .tispm u (if pm then 0x01 else 0x00) [] ∧
      Performs .tval u 0x01 [] ∧
      Performs (.rd s.params.todOrder.minutes) u m [] ∧
      Performs (.rd s.params.todOrder.seconds) u sec [] ∧
      Performs (.rd s.params.todOrder.tenths) u t []) ∧
  ∀ (s : State) (pm : Bool), s.params.wf = true →
    ∃ u, exec (.tsetpm pm) s = .next u ∧
      Performs .tispm u (if pm then 0x01 else 0x00) [] ∧
      Performs .thour u (s.read s.params.todOrder.hours &&& 0x7F) [] ∧
      (StoredTimeValid u ↔ StoredTimeValid s)

/-- R174, R177 (c): `TSETPM 1` then `TSETPM 0` keeps bits 6:0 of the hours byte, clears bit 7, and so restores the
byte exactly when its bit 7 was 0. R177 is an inference of the spec, and the hours byte is that of every `TOD_ORDER`
(log 6). -/
def Obligations.PmOnThenOffRestoresAnAmHour : Prop :=
  ∀ s : State, ∃ t u, exec (.tsetpm true) s = .next t ∧ exec (.tsetpm false) t = .next u ∧
    (∀ k, k < 7 → (u.read s.params.todOrder.hours).getLsbD k
      = (s.read s.params.todOrder.hours).getLsbD k) ∧
    (u.read s.params.todOrder.hours = s.read s.params.todOrder.hours ↔
      (s.read s.params.todOrder.hours).getLsbD 7 = false) ∧
    ∀ r, r ≠ s.params.todOrder.hours → u.read r = s.read r

/-- R172: the three settings of `P_HOUR_BIT7` agree on every `TSET` whose hours operand has bit 7 clear. -/
def Obligations.HourBit7SettingsAgreeOnAClearBit : Prop :=
  ∀ (s s' : State) (setting : HourBit7) (h m sec t : Byte) (pm : Bool), h.getLsbD 7 = false →
    exec (.tset h m sec t pm) s = .next s' →
    ∃ t', exec (.tset h m sec t pm) { s with params := { s.params with hourBit7 := setting } } = .next t' ∧
      t'.resp = s'.resp ∧ t'.regs = s'.regs

/-- R178, R229: a valid stored time stays valid through every step that is neither a reset nor a raw write to one of
its four registers: `TSET` and `TSETPM` cannot make it invalid and nothing else reaches it. R178 is an inference of the spec, and the
stored time is read through every `TOD_ORDER` (log 6). -/
def Obligations.OnlyRawWritesAndResetCanSpoilAValidTime : Prop :=
  ∀ s t : State, s.params.wf = true → StoredTimeValid s → step s = .next t →
    s.prog[s.pc]? ≠ some .rst →
    (∀ w a v, Presents s w → decode w = .ok (.wr a v) → a ∉ todCells s.params) →
    StoredTimeValid t

/-! ## Outcomes (spec/60_exceptions.md) -/

/-- R200, R204: every presented word, legal or reserved, ends in exactly one response, with status 0, 1 or 2; unless
it is OK the result is 0x00 and all sixteen registers are unchanged; nothing else is saved or changed, and the
requester's index advances by one whatever the status. -/
def Obligations.EveryWordEndsInOneOfThreeOutcomes : Prop :=
  ∀ (s : State) (w : OpBits), Presents s w →
    ∃ t st res, step s = .next t ∧ t.resp = some ⟨st, res⟩ ∧
      st.code = (match st with | .ok => 0 | .fail => 1 | .illegal => 2) ∧
      (st ≠ .ok → res = 0x00 ∧ ∀ r, t.read r = s.read r) ∧
      t.params = s.params ∧ t.prog = s.prog ∧ t.pc = s.pc + 1

/-- R201: FAIL comes from a `TSET` with an invalid time and from a `FEXACT` with an unknown bit, always, and from
nothing else. -/
def Obligations.FailComesFromInvalidTimesAndUnknownBitsOnly : Prop :=
  ∀ (i : Instr) (s : State),
    (∃ t res, exec i s = .next t ∧ t.resp = some ⟨.fail, res⟩) ↔
      (∃ h m sec t pm, i = .tset h m sec t pm ∧ ¬ TsetOperandsValid s.params h m sec t) ∨
      (∃ T v, i = .fexact T v ∧ v &&& ~~~(s.params.mask T) ≠ 0)

/-- R202, R85: a step answers ILLEGAL for exactly the words that are legal for no row of the opcode table on the
block's instantiation. -/
def Obligations.IllegalExactlyForReservedWords : Prop :=
  ∀ (s : State) (w : OpBits), Presents s w →
    ((∃ t res, step s = .next t ∧ t.resp = some ⟨.illegal, res⟩) ↔ ¬ LegalWord s.params.inst w)

/-- R45: no operation reads the response of an earlier one. -/
def Obligations.NoOperationReadsAnEarlierResponse : Prop :=
  ∀ (i : Instr) (s : State) (x : Option Response), exec i { s with resp := x } = exec i s

/-! ## Register space (spec/20_memory.md) -/

/-- R65: the reading operations leave all sixteen registers unchanged, and every operation is idempotent: performed
on the state it has left, it leaves that state and answers the same. -/
def Obligations.ReadsHaveNoSideEffectAndOperationsAreIdempotent : Prop :=
  (∀ (i : Instr) (s t : State),
    ((∃ a, i = .rd a) ∨ (∃ r, i = .pas r) ∨ i = .vicget ∨ i = .tval ∨ i = .tispm ∨ i = .thour) →
    exec i s = .next t → ∀ r, t.read r = s.read r) ∧
  ∀ (i : Instr) (s t : State), exec i s = .next t → exec i t = .next t

/-- R61, R75: a step changes a register only by a reset or by a legal operation that can reach that register. R61 is an
inference of the spec, and the time registers an operation reaches are those of every `TOD_ORDER` (log 6). -/
def Obligations.EveryRegisterChangeIsAnOperationsOwn : Prop :=
  ∀ (s t : State) (r : Reg), step s = .next t → t.read r ≠ s.read r →
    s.prog[s.pc]? = some .rst ∨
      ∃ w i, Presents s w ∧ decode w = .ok i ∧ i.wellFormed s.params.inst = true ∧
        r ∈ cellsWritten s.params i

/-- R61: an operation depends on no cell it does not reach. Two states with the same parameters that agree on the
cells it reads give the same response and the same bytes in the cells it writes, wherever it writes. R61 is an
inference of the spec, and the time registers an operation reads are those of every `TOD_ORDER` (log 6). -/
def Obligations.OperationsDependOnTheirCellsOnly : Prop :=
  ∀ (i : Instr) (s t s' : State), t.params = s.params →
    (∀ r ∈ cellsRead s.params i, t.read r = s.read r) → exec i s = .next s' →
    ∃ t', exec i t = .next t' ∧ t'.resp = s'.resp ∧
      ∀ r, t'.read r = s'.read r ∨ (t'.read r = t.read r ∧ s'.read r = s.read r)

/-- R113: a step that changes a timer, serial, interrupt-control or timer-control register, and is no reset, is a raw
write to that register. -/
def Obligations.OnlyRawWritesReachTimerSerialAndControlRegisters : Prop :=
  ∀ (s t : State) (r : Reg), s.params.wf = true →
    r ∈ ([4, 5, 6, 7, 12, 13, 14, 15] : List Reg) → step s = .next t → t.read r ≠ s.read r →
    s.prog[s.pc]? = some .rst ∨ ∃ w v, Presents s w ∧ decode w = .ok (.wr r v)

/-- R33, R89: after the two operations of `WRT16`, the timer's 16-bit value under `TIMER_ORDER` is the one written,
and the two results of `RDT16` are its bytes, under either order. -/
def Obligations.Wrt16ThenRdt16GivesTheValueBack : Prop :=
  ∀ (s : State) (timer : Timer) (v : BitVec 16) (rest : List Request),
    s.prog.drop s.pc = requestsOf (Pseudo.expand s.params.timerOrder (.wrt16 timer v)) ++
      (requestsOf (Pseudo.expand s.params.timerOrder (.rdt16 timer)) ++ rest) →
    ∃ t u b1 b2, Host.Core.run core 3 s = .next t ∧ step t = .next u ∧
      State.timerValue t timer = v ∧ t.resp = some ⟨.ok, b1⟩ ∧ u.resp = some ⟨.ok, b2⟩ ∧
      pairValue s.params.timerOrder b1 b2 = v

/-! ## Encoding (spec/30_encoding.md) -/

/-- R80, R84: words written out from the spec's tables decode to the operations they stand for. -/
def Obligations.WordsOfTheSpecDecodeToTheirOperations : Prop :=
  decode 0x000B00000000 = .ok (.rd 11) ∧
  decode 0x0102FF000000 = .ok (.wr 2 0xFF) ∧
  decode 0x120081020000 = .ok (.funion .ic 0x81 0x02) ∧
  decode 0x210628000000 = .ok (.pfrom .serA 0x28) ∧
  decode 0x300600000000 = .ok (.dpreset .cia2BRs232) ∧
  decode 0x411259590901 = .ok (.tset 0x12 0x59 0x59 0x09 true) ∧
  decode 0x020000000000 = .error .unknownOpcode ∧
  decode 0x400000000001 = .error .unusedByteNonzero ∧
  decode 0x001000000000 = .error .operandOutOfRange ∧
  decodeOn .cia1 0x220000000000 = .error .otherInstantiation

/-- Every operation, with every value of every operand, is what the decoder reads from its word; so it is on every
block the operation is legal on. -/
def Obligations.DecodeOfEncodeIsTheOperation : Prop :=
  ∀ i : Instr, decode (encode i) = .ok i ∧
    (∀ inst, i.wellFormed inst = true ↔ decodeOn inst (encode i) = .ok i) ∧
    ∀ rest, decodeBytes ((encodeFields i).toBytes ++ rest) = some (i, rest)

/-- A word that decodes is the word of the operation it decodes to: no bit is ignored and no operation has two
words. -/
def Obligations.EncodeOfDecodeIsTheWord : Prop :=
  ∀ (w : OpBits) (i : Instr), decode w = .ok i → encode i = w

/-- R90, R86: no two rows of the opcode table match the same word (an inference of the spec from R84), and a word that
is legal for a row decodes to an operation of that row. -/
def Obligations.EachLegalWordSelectsOneRow : Prop :=
  (∀ (w : OpBits) (row1 row2 : TableRow), row1 ∈ tableRows → row2 ∈ tableRows →
    row1.Matches w → row2.Matches w → row1 = row2) ∧
  ∀ (w : OpBits) (inst : Inst) (row : TableRow), row ∈ tableRows → row.Legal inst w →
    ∃ i, decodeOn inst w = .ok i ∧ i.opcode = row.opcode

/-! ## Reset, steps and runs (spec/70_reset_and_hazards.md, spec/10_state.md) -/

/-- R48, R49: after reset the direction registers hold the defaults of the block's instantiation and the other
fourteen the bytes of `RESET_IMAGE`, whatever the parameters; with the spec's default image, all 0x00, `TVAL` answers
false. -/
def Obligations.ResetValuesOfTheSixteenRegisters : Prop :=
  (∀ p : Params,
    (State.resetOf p).read 2 = (match p.inst with | .cia1 => p.ddrDefaults.cia1A | .cia2 => p.ddrDefaults.cia2A) ∧
    (State.resetOf p).read 3 = (match p.inst with | .cia1 => p.ddrDefaults.cia1B | .cia2 => p.ddrDefaults.cia2B) ∧
    ([0, 1, 4, 5, 6, 7, 8, 9, 10, 11, 12, 13, 14, 15] : List Reg).map (State.resetOf p).read =
      [p.image.pra, p.image.prb, p.image.talo, p.image.tahi, p.image.tblo, p.image.tbhi, p.image.tod10,
       p.image.todsec, p.image.todmin, p.image.todhr, p.image.sdr, p.image.icr, p.image.cra, p.image.crb]) ∧
  ∀ p : Params, p.wf = true → p.image = ⟨0, 0, 0, 0, 0, 0, 0, 0, 0, 0, 0, 0, 0, 0⟩ →
    Performs .tval (State.resetOf p) 0x00 []

/-- R220, R221: asserting `rst` in any state is one step that sets all sixteen registers to their reset values,
gives no response, and changes nothing else of the block; `DDEFAULT` of either port right after it changes no register (R161). -/
def Obligations.AssertingRstResetsAllSixteenRegisters : Prop :=
  ∀ s : State, s.prog[s.pc]? = some .rst →
    ∃ t, step s = .next t ∧ (∀ r, t.read r = (State.resetOf s.params).read r) ∧ t.resp = none ∧
      t.params = s.params ∧ t.prog = s.prog ∧
      ∀ port, ∃ u, exec (.ddefault port) t = .next u ∧ ∀ r, u.read r = t.read r

/-- The step of a word that decodes is `exec` of the operation at that state, with the requester's index advanced by
one; the step of a word that does not decode is ILLEGAL. -/
def Obligations.AStepRunsTheDecodedOperation : Prop :=
  (∀ (s t : State) (w : OpBits) (i : Instr), Presents s w → decode w = .ok i → exec i s = .next t →
    step s = .next { t with pc := t.pc + 1 }) ∧
  ∀ (s : State) (w : OpBits) (why : Reserved), Presents s w → decode w = .error why → StepIllegal s

/-- The host's loader puts the opcode table's word where the next step takes it, changes no register, and the step
runs exactly the operation the decoder reads from it (the model's choice, log 7 and log 11). -/
def Obligations.WithFetchWordRunsThatWordNext : Prop :=
  ∀ (s t : State) (w : Nat) (i : Instr), decodeTableWord 48 w = some i →
    (s.withFetchWord 48 w).regs = s.regs ∧ (s.withFetchWord 48 w).params = s.params ∧
    (exec i (s.withFetchWord 48 w) = .next t →
      step (s.withFetchWord 48 w) = .next { t with pc := t.pc + 1 })

/-- R93, R20: no operation transfers control: a step of a presented word advances the index by exactly one, and
leaves the requester's sequence and the parameters as they are. -/
def Obligations.NoOperationTransfersControl : Prop :=
  ∀ (i : Instr) (s t : State), exec i s = .next t →
    t.pc = s.pc ∧ t.prog = s.prog ∧ t.params = s.params ∧
    ∀ w, Presents s w → decode w = .ok i → ∃ u, step s = .next u ∧ u.pc = s.pc + 1

/-- R44, R240: a run from any state whose index is within its sequence takes exactly as many steps as requests are
left, none of them stops, and then the run is over. That the model calls this a fault is its own choice (log 10), and
so is that an assertion of `rst` stands in the sequence and advances the index by one (log 8). -/
def Obligations.EveryFiniteRunEndsAfterItsLastRequest : Prop :=
  ∀ s : State, s.pc ≤ s.prog.length →
    ∃ t : State, Host.Core.run core (s.prog.length - s.pc) s = .next t ∧ t.pc = s.prog.length ∧
      t.prog = s.prog ∧ t.params = s.params ∧ step t = .fault .runEnded

/-- The invariant holds at reset, for every block whose `TOD_ORDER` is a permutation and for the host's own reset
state. -/
def Obligations.InvariantHoldsAtReset : Prop :=
  (∀ p : Params, p.wf = true → Inv (State.resetOf p)) ∧ Inv State.reset

/-- Every step keeps the invariant, in every state, reachable or not. -/
def Obligations.EveryStepKeepsTheInvariant : Prop :=
  ∀ s t : State, Inv s → step s = .next t → Inv t

/-! ## Direction bits (spec/00_scope.md, spec/10_state.md) -/

/-- R6, R29, R32: after a `WR` of any byte to a port's direction register, line `i` of that port is an input where bit
`i` is 0 and an output where it is 1; the other port's lines and both port bytes are what they were. -/
def Obligations.DirectionBitsSayInputOrOutput : Prop :=
  ∀ (s : State) (port : Port) (v : Byte), ∃ t, exec (.wr port.ddr v) s = .next t ∧
    (∀ i : Fin 8, (v.getLsbD i = false → t.lineDirection port i = .input) ∧
      (v.getLsbD i = true → t.lineDirection port i = .output)) ∧
    (∀ other i, other ≠ port → t.lineDirection other i = s.lineDirection other i) ∧
    ∀ p : Port, t.read p.reg = s.read p.reg
end

