-- ==== Sys2Proof/Laws/State.lean ====
section
/-! SUPPORT. One lemma per field per update of `State`, and what a register reads after each update. -/

namespace Sys2Proof.Machine

section
variable (s : State) (r r' : Reg) (v res : Byte) (st : Status) (q : Request)

/-! ## Writing a register -/

@[simp] theorem State.write_params : (s.write r v).params = s.params := rfl
@[simp] theorem State.write_prog : (s.write r v).prog = s.prog := rfl
@[simp] theorem State.write_pc : (s.write r v).pc = s.pc := rfl
@[simp] theorem State.write_resp : (s.write r v).resp = s.resp := rfl

/-- A register reads as the byte last written to it, and a write leaves every other register alone (R22). -/
theorem State.read_write : (s.write r v).read r' = if r = r' then v else s.read r' := by
  unfold State.read State.write
  rw [Vector.getElem_set]
  simp only [Fin.val_inj]

@[simp] theorem State.read_write_same : (s.write r v).read r = v := by simp [State.read_write]

theorem State.read_write_of_ne (h : r ≠ r') : (s.write r v).read r' = s.read r' := by
  simp [State.read_write, h]

/-! ## The response output -/

@[simp] theorem State.respond_regs : (s.respond st res).regs = s.regs := rfl
@[simp] theorem State.respond_params : (s.respond st res).params = s.params := rfl
@[simp] theorem State.respond_prog : (s.respond st res).prog = s.prog := rfl
@[simp] theorem State.respond_pc : (s.respond st res).pc = s.pc := rfl
@[simp] theorem State.respond_resp : (s.respond st res).resp = some ⟨st, res⟩ := rfl
@[simp] theorem State.read_respond : (s.respond st res).read r = s.read r := rfl

/-! ## The requester's index -/

@[simp] theorem State.advance_regs : s.advance.regs = s.regs := rfl
@[simp] theorem State.advance_params : s.advance.params = s.params := rfl
@[simp] theorem State.advance_prog : s.advance.prog = s.prog := rfl
@[simp] theorem State.advance_pc : s.advance.pc = s.pc + 1 := rfl
@[simp] theorem State.advance_resp : s.advance.resp = s.resp := rfl
@[simp] theorem State.read_advance : s.advance.read r = s.read r := rfl

/-! ## Reset -/

@[simp] theorem State.applyReset_regs : s.applyReset.regs = resetRegs s.params := rfl
@[simp] theorem State.applyReset_params : s.applyReset.params = s.params := rfl
@[simp] theorem State.applyReset_prog : s.applyReset.prog = s.prog := rfl
@[simp] theorem State.applyReset_pc : s.applyReset.pc = s.pc := rfl
@[simp] theorem State.applyReset_resp : s.applyReset.resp = none := rfl
@[simp] theorem State.read_applyReset : s.applyReset.read r = (State.resetOf s.params).read r := rfl

/-! ## Placing a request -/

@[simp] theorem State.present_regs : (s.present q).regs = s.regs := rfl
@[simp] theorem State.present_params : (s.present q).params = s.params := rfl
@[simp] theorem State.present_resp : (s.present q).resp = s.resp := rfl
@[simp] theorem State.read_present : (s.present q).read r = s.read r := rfl

/-- A placed request is what the requester presents next. -/
theorem State.fetch_present : (s.present q).fetch = some q := by
  simp [State.fetch, State.present]

end

/-- Two states are equal when their registers read the same and the other four fields are equal. -/
theorem State.ext_read {s t : State} (hr : ∀ r, s.read r = t.read r) (hp : s.params = t.params)
    (hg : s.prog = t.prog) (hc : s.pc = t.pc) (ha : s.resp = t.resp) : s = t := by
  have hregs : s.regs = t.regs := by
    apply Vector.ext
    intro k hk
    exact hr ⟨k, hk⟩
  cases s
  cases t
  simp_all

/-! ## The time of day -/

section
variable (s : State) (h m sec t : Byte)

@[simp] theorem State.writeHours_params : (s.writeHours h).params = s.params := rfl
@[simp] theorem State.writeHours_prog : (s.writeHours h).prog = s.prog := rfl
@[simp] theorem State.writeHours_pc : (s.writeHours h).pc = s.pc := rfl
@[simp] theorem State.writeTime_params : (s.writeTime h m sec t).params = s.params := rfl
@[simp] theorem State.writeTime_prog : (s.writeTime h m sec t).prog = s.prog := rfl
@[simp] theorem State.writeTime_pc : (s.writeTime h m sec t).pc = s.pc := rfl

/-- What a register reads after all four fields were written, whatever `TOD_ORDER` is. -/
theorem State.read_writeTime (r : Reg) : (s.writeTime h m sec t).read r =
    if s.params.todOrder.tenths = r then t
    else if s.params.todOrder.seconds = r then sec
    else if s.params.todOrder.minutes = r then m
    else if s.params.todOrder.hours = r then h
    else s.read r := by
  simp only [State.writeTime, State.read_write]

end

end Sys2Proof.Machine
end

