-- ==== Sys2Proof/Laws/Bcd.lean ====
section
/-! SUPPORT. The validity predicates against their second form in R35, and the AM/PM flag against the hour. -/

namespace Sys2Proof.Machine

/-- `hour_ok` accepts exactly the bytes whose low seven bits are a BCD hour 1 to 12 (R35). -/
theorem hourOk_iff (h : Byte) : hourOk h = true ↔ ValidHour h := by
  unfold ValidHour
  revert h
  decide

/-- `secmin_ok` accepts exactly the bytes with a high nibble up to 5 and a low nibble up to 9 (R35). -/
theorem secminOk_iff (b : Byte) : secminOk b = true ↔ ValidSecMin b := by
  unfold ValidSecMin
  revert b
  decide

theorem tenthsOk_iff (rule : TenthsRule) (t : Byte) : tenthsOk rule t = true ↔ ValidTenths rule t := by
  revert t
  cases rule <;> decide

theorem todOk_iff (rule : TenthsRule) (h m sec t : Byte) :
    todOk rule h m sec t = true ↔ ValidTime rule h m sec t := by
  simp [todOk, ValidTime, hourOk_iff, secminOk_iff, tenthsOk_iff, and_assoc]

theorem isPm_eq_false_iff (h : Byte) : isPm h = false ↔ h.toNat < 128 := by
  revert h
  decide

/-- `hour_ok` ignores the AM/PM flag (R35, R178). -/
theorem hourOk_hourBits (h : Byte) : hourOk (hourBits h) = hourOk h := by
  revert h
  decide

theorem tsetAccepts_iff (p : Params) (h m sec t : Byte) :
    tsetAccepts p h m sec t = true ↔ TsetOperandsValid p h m sec t := by
  cases hb : p.hourBit7 <;>
    simp [tsetAccepts, TsetOperandsValid, ValidTime, hourOperandOk, hb, hourOk_hourBits, hourOk_iff,
      secminOk_iff, tenthsOk_iff, and_assoc, isPm_eq_false_iff]

/-- A `TSET` with operands that are no valid time fails (R172). -/
theorem execTset_of_not_valid {s : State} {h m sec t : Byte} {pm : Bool}
    (hv : ¬ TsetOperandsValid s.params h m sec t) :
    execTset h m sec t pm s = raiseFail .invalidBcd s := by
  rw [execTset, if_neg ((tsetAccepts_iff ..).not.2 hv)]

theorem timeOk_iff (s : State) : s.timeOk = true ↔ StoredTimeValid s := todOk_iff ..

/-- Setting the flag leaves the hour alone (R174). -/
theorem hourBits_withPm (h : Byte) (pm : Bool) : hourBits (withPm h pm) = hourBits h := by
  apply BitVec.eq_of_getLsbD_eq
  intro k hk
  cases pm <;> unfold hourBits withPm pmBit hourBits <;> interval_cases k <;> simp

/-- The flag reads as it was set (R173, R174). -/
theorem isPm_withPm (h : Byte) (pm : Bool) : isPm (withPm h pm) = pm := by
  cases pm <;> simp [isPm, withPm, hourBits, pmBit]

/-- A permutation of 0x08 to 0x0B names four different registers, all of them time-of-day registers (R7). -/
theorem todOrder_of_wf {p : Params} (h : p.wf = true) :
    (todCells p).Nodup ∧ ∀ r ∈ todCells p, r ∈ ([8, 9, 10, 11] : List Reg) := by
  have hp : [p.todOrder.tenths, p.todOrder.seconds, p.todOrder.minutes, p.todOrder.hours].Perm
      [8, 9, 10, 11] := by
    simpa [Params.wf, TodOrder.isPermutation] using h
  have hq : (todCells p).Perm [8, 9, 10, 11] := (List.reverse_perm _).symm.trans hp
  exact ⟨hq.nodup_iff.2 (by decide), fun r hr => hq.mem_iff.1 hr⟩

end Sys2Proof.Machine
end

