-- ==== Sys2Proof/Laws/Decode.lean ====
section
/-! SUPPORT. The word and its byte fields, and each operand kind's code table read in both directions. -/

namespace Sys2Proof

/-! ## The word and its fields (R80) -/

/-- A byte slice of a word is read bit by bit. -/
theorem slice_eq_iff (w : BitVec (8 + 8 + 8 + 8 + 8 + 8)) (lo : Nat) (b : Byte) :
    w.extractLsb' lo 8 = b ↔ ∀ k, k < 8 → w.getLsbD (lo + k) = b.getLsbD k := by
  constructor
  · rintro rfl k hk
    simp [hk]
  · intro h
    apply BitVec.eq_of_getLsbD_eq
    intro k hk
    simp only [BitVec.getLsbD_extractLsb', hk, decide_true, Bool.true_and, h k hk]

theorem OpWord.ofBits_toBits (f : OpWord) : OpWord.ofBits f.toBits = f := by
  obtain ⟨op, a, b, c, d, e⟩ := f
  simp only [OpWord.ofBits, OpWord.toBits, OpWord.mk.injEq]
  refine ⟨?_, ?_, ?_, ?_, ?_, ?_⟩ <;>
    (refine (slice_eq_iff _ _ _).2 fun k hk => ?_
     simp only [BitVec.getLsbD_append]
     interval_cases k <;> simp)

theorem OpWord.toBits_ofBits (w : OpBits) : (OpWord.ofBits w).toBits = w := by
  apply BitVec.eq_of_getLsbD_eq
  intro k hk
  simp only [OpWord.ofBits, OpWord.toBits, BitVec.getLsbD_append, BitVec.getLsbD_extractLsb']
  interval_cases k <;> simp

/-! ## Code tables -/

/-- What `findCode` finds is of the list and has the code. -/
theorem code_of_findCode {α : Type} {all : List α} {code : α → Byte} {b : Byte} {x : α}
    (h : findCode all code b = some x) : code x = b := by
  simpa using List.find?_some h

theorem Opcode.ofByte_byte (o : Opcode) : Opcode.ofByte o.byte = some o := by cases o <;> rfl

theorem typeOfByte_code (T : FlagType) : typeOfByte T.code = some T := by cases T <;> rfl

theorem roleOfByte_code (r : Role) : roleOfByte r.code = some r := by cases r <;> rfl

theorem presetOfByte_code (p : Preset) : presetOfByte p.code = some p := by cases p <;> rfl

theorem boolOfByte_code (p : Bool) : boolOfByte (boolCode p) = some p := by cases p <;> rfl

theorem portOfByte_code (s : Port) : portOfByte s.code = some s := by cases s <;> rfl

theorem addrOfByte_addrByte (r : Reg) : addrOfByte (addrByte r) = some r := by
  have h : r.val % 256 = r.val := Nat.mod_eq_of_lt (by omega)
  simp [addrOfByte, addrByte, h]

theorem addrByte_of_addrOfByte {b : Byte} {r : Reg} (h : addrOfByte b = some r) : addrByte r = b := by
  unfold addrOfByte at h
  split at h
  · cases h
    simp [addrByte]
  · cases h

/-- A byte is a `type` operand exactly up to 0x09 (R83). -/
theorem typeOfByte_eq_none (b : Byte) : typeOfByte b = none ↔ 9 < b.toNat := by
  revert b; decide

/-- A byte is a `role` operand exactly from 0x02 to 0x09 (R83). -/
theorem roleOfByte_eq_none (b : Byte) : roleOfByte b = none ↔ b.toNat < 2 ∨ 9 < b.toNat := by
  revert b; decide

/-- A byte is a `preset` operand exactly up to 0x06 (R83). -/
theorem presetOfByte_eq_none (b : Byte) : presetOfByte b = none ↔ 6 < b.toNat := by
  revert b; decide

/-- A byte is a `bool` operand exactly up to 0x01 (R83). -/
theorem boolOfByte_eq_none (b : Byte) : boolOfByte b = none ↔ 1 < b.toNat := by
  revert b; decide

theorem portOfByte_eq_none (b : Byte) : portOfByte b = none ↔ 1 < b.toNat := by
  revert b; decide

/-- A byte is an `addr` operand exactly up to 0x0F (R83). -/
theorem addrOfByte_eq_none (b : Byte) : addrOfByte b = none ↔ 16 ≤ b.toNat := by
  unfold addrOfByte
  split <;> simp <;> omega

/-- A byte is of an opcode exactly when it is the opcode's byte (R84). -/
theorem Opcode.ofByte_eq_some {b : Byte} {o : Opcode} : Opcode.ofByte b = some o ↔ o.byte = b :=
  ⟨code_of_findCode, by rintro rfl; exact Opcode.ofByte_byte o⟩

/-! ## Decoding, row by row (R87) -/

theorem decode_toBits (f : OpWord) : decode f.toBits = decodeFields f := by
  simp [decode, OpWord.ofBits_toBits]

/-- A word decodes exactly when its opcode byte has a row, the bytes the row's format leaves unused are 0x00, and the
operand bytes are in range. -/
theorem decodeFields_eq_ok {f : OpWord} {i : Instr} : decodeFields f = .ok i ↔
    ∃ o : Opcode, o.byte = f.op ∧ f.unusedZero o.format = true ∧ decodeOperands f o = some i := by
  simp only [← Opcode.ofByte_eq_some]
  unfold decodeFields
  cases ho : Opcode.ofByte f.op with
  | none => simp
  | some o =>
    cases hz : f.unusedZero o.format with
    | false => simp [hz]
    | true => cases hd : decodeOperands f o <;> simp [hz, hd]

/-- A word of a row is reserved exactly when a byte the format leaves unused is not 0x00 or an operand is out of
range. -/
theorem decodeFields_error_of_row {f : OpWord} {o : Opcode} (ho : o.byte = f.op)
    (h : f.unusedZero o.format = false ∨ decodeOperands f o = none) :
    ∃ why, decodeFields f = .error why := by
  cases hd : decodeFields f with
  | error why => exact ⟨why, rfl⟩
  | ok i =>
    obtain ⟨o', ho', hz, hi⟩ := decodeFields_eq_ok.1 hd
    have : o' = o := by
      have := Opcode.ofByte_byte o'
      rw [ho', ← ho, Opcode.ofByte_byte o] at this
      exact (Option.some.inj this).symm
    subst this
    simp_all

/-- The decoder gives an operation of the row it selected. -/
theorem opcode_of_decodeOperands {f : OpWord} {o : Opcode} {i : Instr}
    (h : decodeOperands f o = some i) : i.opcode = o := by
  cases o <;> simp only [decodeOperands, Option.map_eq_some_iff, Option.some.injEq] at h <;>
    obtain ⟨_, _, rfl⟩ := h <;> rfl

end Sys2Proof
end

