-- ==== Sys2Proof/Laws/Flags.lean ====
section
/-! SUPPORT. The flag-set algebra and the VIC-bank functions, bit by bit. -/

namespace Sys2Proof.Machine

section
variable (k p q b n x : Byte) (j : Nat)

theorem getLsbD_trunc : (trunc k b).getLsbD j = (b.getLsbD j && k.getLsbD j) := by simp [trunc]

theorem getLsbD_union :
    (union k p q).getLsbD j = ((p.getLsbD j || q.getLsbD j) && k.getLsbD j) := by simp [union]

theorem getLsbD_inter :
    (inter k p q).getLsbD j = (p.getLsbD j && q.getLsbD j && k.getLsbD j) := by simp [inter]

theorem getLsbD_compl (h : j < 8) :
    (compl k p).getLsbD j = (!p.getLsbD j && k.getLsbD j) := by simp [compl, h]

/-- Truncating is idempotent (R121). -/
theorem trunc_trunc : trunc k (trunc k b) = trunc k b := by
  simp [trunc, BitVec.and_assoc]

/-- Complementing twice truncates (R125). -/
theorem compl_compl : compl k (compl k p) = trunc k p := by
  apply BitVec.eq_of_getLsbD_eq
  intro i hi
  rw [getLsbD_compl _ _ _ hi, getLsbD_compl _ _ _ hi, getLsbD_trunc]
  cases p.getLsbD i <;> simp

/-- The view of an embedded view is the view (R140). -/
theorem asRole_fromRole : asRole k (fromRole k b) = asRole k b := by
  simp [asRole, fromRole, BitVec.and_assoc]

/-- The bank bits read as they were set (R144). -/
theorem vicGet_vicSet : vicGet (vicSet x n) = vicGet n := by
  apply BitVec.eq_of_getLsbD_eq
  intro i hi
  unfold vicGet vicSet
  interval_cases i <;> simp

end

end Sys2Proof.Machine
end

