-- ==== Sys2Proof/Laws/Ops.lean ====
section
/-! SUPPORT. Each shared operation said once: what it answers, and everything it can do. -/

namespace Sys2Proof.Machine

/-! ## The three outcomes -/

/-- An operation that ends OK answers its state with the response on it and nothing else changed. -/
theorem ok_eq_next {res : Byte} {s t : State} : ok res s = .next t ↔ t = s.respond .ok res := by
  simp [ok, eq_comm]

theorem raiseFail_eq_next {cause : FailCause} {s t : State} :
    raiseFail cause s = .next t ↔ t = s.respond .fail 0x00 := by
  simp [raiseFail, eq_comm]

theorem raiseIllegal_eq_next {s t : State} :
    raiseIllegal s = .next t ↔ t = s.respond .illegal 0x00 := by
  simp [raiseIllegal, eq_comm]

theorem onlyOn_of_eq {inst : Inst} {s : State} (h : inst = s.params.inst) (x : Result) :
    onlyOn inst s x = x := by
  simp [onlyOn, h]

theorem onlyOn_of_ne {inst : Inst} {s : State} (h : inst ≠ s.params.inst) (x : Result) :
    onlyOn inst s x = raiseIllegal s := by
  simp [onlyOn, Ne.symm h]

/-! ## What `exec` answers -/

/-- Everything an operation can do: it answers a next state, the state it works on with a response on it, in which no
parameter and nothing of the requester is changed, and nothing at all unless the status is OK (R200). -/
theorem exec_next (i : Instr) (s : State) : ∃ u st res,
    exec i s = .next (u.respond st res) ∧ u.params = s.params ∧ u.prog = s.prog ∧ u.pc = s.pc ∧
      (st ≠ .ok → res = 0x00 ∧ u = s) := by
  cases i <;>
    simp only [exec, execRd, execWr, execFtrunc, execFexact, execFunion, execFinter, execFcompl,
      execFcont, execPas, execPfrom, execVicget, execVicset, execDpreset, execDdefault, execTval,
      execTset, execTispm, execTsetpm, execThour, onlyOn, ok, raiseFail, raiseIllegal] <;>
    (try split_ifs) <;> exact ⟨_, _, _, rfl, by simp⟩

/-- An operation of the other instantiation is ILLEGAL (R85 (d), R87). -/
theorem exec_of_not_wellFormed {i : Instr} {s : State} (h : i.wellFormed s.params.inst ≠ true) :
    exec i s = raiseIllegal s := by
  cases i <;> simp only [Instr.wellFormed, decide_eq_true_eq, ne_eq, not_true_eq_false] at h <;>
    simp [exec, execPas, execPfrom, execVicget, execVicset, execDpreset, onlyOn, Ne.symm h, h]

/-! ## What a step does -/

/-- A step whose answer is advanced answers a next state exactly when the operation does. -/
theorem advanced_eq_next {x : Result} {t : State} :
    advanced x = .next t ↔ ∃ u, x = .next u ∧ t = u.advance := by
  cases x <;> simp [advanced, eq_comm]

/-- Everything a step can do: the requester asserts `rst`, or presents a word that decodes, or presents one that
does not. -/
theorem step_cases {s t : State} (h : step s = .next t) :
    (s.fetch = some .rst ∧ t = s.applyReset.advance) ∨
    (∃ w i u, s.fetch = some (.op w) ∧ decode w = .ok i ∧ exec i s = .next u ∧ t = u.advance) ∨
    (∃ w why, s.fetch = some (.op w) ∧ decode w = .error why ∧
      t = (s.respond .illegal 0x00).advance) := by
  unfold step at h
  split at h
  · cases h
  · next hf => exact .inl ⟨hf, by simpa [advanced, eq_comm] using h⟩
  · next w hf =>
    split at h
    · next i hd =>
      obtain ⟨u, hu, rfl⟩ := advanced_eq_next.1 h
      exact .inr (.inl ⟨w, i, u, hf, hd, hu, rfl⟩)
    · next why hd =>
      obtain ⟨u, hu, rfl⟩ := advanced_eq_next.1 h
      rw [raiseIllegal_eq_next] at hu
      exact .inr (.inr ⟨w, why, hf, hd, by rw [hu]⟩)

theorem step_of_ok {s : State} {w : OpBits} {i : Instr} (hf : s.fetch = some (.op w))
    (hd : decode w = .ok i) : step s = advanced (exec i s) := by
  simp [step, hf, hd]

theorem step_of_error {s : State} {w : OpBits} {why : Reserved} (hf : s.fetch = some (.op w))
    (hd : decode w = .error why) : step s = .next (s.respond .illegal 0x00).advance := by
  simp [step, hf, hd, raiseIllegal, advanced]

theorem step_of_rst {s : State} (hf : s.fetch = some .rst) : step s = .next s.applyReset.advance := by
  simp [step, hf, advanced]

end Sys2Proof.Machine
end

