-- ==== Sys2Proof/Laws/PerInstr.lean ====
section
/-! SUPPORT. What holds of the encoding of every operation, one lemma per constructor: the word's opcode byte is the
operation's row and every byte that the row's format does not use is 0x00 (R82, R84). -/

namespace Sys2Proof.Laws.EncodesInFormat

/-- The operation's word is in the format of its row. -/
def Statement (i : Instr) : Prop :=
  (encodeFields i).op = i.opcode.byte ∧ (encodeFields i).unusedZero i.opcode.format = true

theorem rd (a : Reg) : Statement (.rd a) := ⟨rfl, rfl⟩
theorem wr (a : Reg) (v : Byte) : Statement (.wr a v) := ⟨rfl, rfl⟩
theorem ftrunc (T : FlagType) (v : Byte) : Statement (.ftrunc T v) := ⟨rfl, rfl⟩
theorem fexact (T : FlagType) (v : Byte) : Statement (.fexact T v) := ⟨rfl, rfl⟩
theorem funion (T : FlagType) (p q : Byte) : Statement (.funion T p q) := ⟨rfl, rfl⟩
theorem finter (T : FlagType) (p q : Byte) : Statement (.finter T p q) := ⟨rfl, rfl⟩
theorem fcompl (T : FlagType) (p : Byte) : Statement (.fcompl T p) := ⟨rfl, rfl⟩
theorem fcont (T : FlagType) (p q : Byte) : Statement (.fcont T p q) := ⟨rfl, rfl⟩
theorem pas (r : Role) : Statement (.pas r) := ⟨rfl, rfl⟩
theorem pfrom (r : Role) (v : Byte) : Statement (.pfrom r v) := ⟨rfl, rfl⟩
theorem vicget : Statement .vicget := ⟨rfl, rfl⟩
theorem vicset (n : Byte) : Statement (.vicset n) := ⟨rfl, rfl⟩
theorem dpreset (p : Preset) : Statement (.dpreset p) := ⟨rfl, rfl⟩
theorem ddefault (port : Port) : Statement (.ddefault port) := ⟨rfl, rfl⟩
theorem tval : Statement .tval := ⟨rfl, rfl⟩
theorem tset (h m sec t : Byte) (pm : Bool) : Statement (.tset h m sec t pm) := ⟨rfl, rfl⟩
theorem tispm : Statement .tispm := ⟨rfl, rfl⟩
theorem tsetpm (pm : Bool) : Statement (.tsetpm pm) := ⟨rfl, rfl⟩
theorem thour : Statement .thour := ⟨rfl, rfl⟩

end Sys2Proof.Laws.EncodesInFormat
end

