-- ==== Sys2Proof/Laws/Run.lean ====
section
/-! SUPPORT. Runs, one step at a time: what a run does first, what the requester presents, and what a step does to a
register that the presented operation does not reach. -/

namespace Sys2Proof.Machine

@[simp] theorem core_step (s : State) : core.step s = step s := rfl

/-- A run of one step more is the step and then the run. -/
theorem run_succ_of_step {n : Nat} {s t : State} (h : step s = .next t) :
    Host.Core.run core (n + 1) s = Host.Core.run core n t := by
  simp only [Host.Core.run]
  split
  · next t' h' => cases h.symm.trans h'; rfl
  · next f h' => cases h.symm.trans h'
  · next r h' => cases h.symm.trans h'

/-- The head of what is left of the sequence is what is presented, and after the step its tail is left (R44). -/
theorem fetch_of_drop {s : State} {q : Request} {rest : List Request}
    (h : s.prog.drop s.pc = q :: rest) :
    s.fetch = some q ∧ ∀ t : State, t.prog = s.prog → t.pc = s.pc + 1 → t.prog.drop t.pc = rest := by
  refine ⟨?_, fun t hg hc => ?_⟩
  · have h0 := congrArg (fun l => l[0]?) h
    simpa [State.fetch, List.getElem?_drop] using h0
  · rw [hg, hc, ← List.drop_drop, h]
    rfl

/-- A register that an operation does not reach is unchanged by it (R61). -/
theorem exec_frame {i : Instr} {s t : State} (h : exec i s = .next t) {r : Reg}
    (hr : r ∉ cellsWritten s.params i) : t.read r = s.read r := by
  cases i <;>
    simp only [exec, execRd, execWr, execFtrunc, execFexact, execFunion, execFinter, execFcompl,
      execFcont, execPas, execPfrom, execVicget, execVicset, execDpreset, execDdefault, execTval,
      execTset, execTispm, execTsetpm, execThour, onlyOn, ok, raiseFail, raiseIllegal] at h <;>
    (try split_ifs at h) <;> cases h <;>
    simp only [cellsWritten, todCells, List.mem_cons, List.not_mem_nil, or_false, not_or] at hr <;>
    first
      | rfl
      | exact State.read_write_of_ne _ _ _ _ (Ne.symm hr)
      | simp [State.read_writeTime, Ne.symm hr.1, Ne.symm hr.2.1, Ne.symm hr.2.2.1, Ne.symm hr.2.2.2]

/-- A register is unchanged by the step of a word that is reserved on the block's instantiation, whose operation does
not reach the register, or that is a `TSET` that fails (R61, R200). -/
theorem step_frame {s t : State} {w : OpBits} (hf : s.fetch = some (.op w)) (h : step s = .next t) {r : Reg}
    (hr : ∀ i, decodeOn s.params.inst w = .ok i → r ∉ cellsWritten s.params i ∨
      ∃ h m sec t pm, i = .tset h m sec t pm ∧ ¬ TsetOperandsValid s.params h m sec t) :
    t.read r = s.read r := by
  rcases step_cases h with ⟨hf', -⟩ | ⟨w', i, u, hf', hd, hx, rfl⟩ | ⟨w', why, -, -, rfl⟩
  · cases hf.symm.trans hf'
  · cases hf.symm.trans hf'
    by_cases hwf : i.wellFormed s.params.inst = true
    · rcases hr i (by simp [decodeOn, hd, hwf]) with hn | ⟨h, m, sec, t, pm, rfl, hv⟩
      · exact exec_frame hx hn
      · cases (execTset_of_not_valid hv).symm.trans hx
        rfl
    · cases (exec_of_not_wellFormed hwf).symm.trans hx
      rfl
  · rfl

end Sys2Proof.Machine
end

