-- ==== Sys2Proof/Machine/Listing.lean ====
section
/-! DEFINITION. The listing syntax (R88): names of operations, registers, types, roles and presets, and an operation
and a response as a listing writes them (log 17). -/

namespace Sys2Proof

/-- The mnemonics of R84. -/
def Opcode.mnemonic : Opcode → String
  | .rd => "RD"
  | .wr => "WR"
  | .ftrunc => "FTRUNC"
  | .fexact => "FEXACT"
  | .funion => "FUNION"
  | .finter => "FINTER"
  | .fcompl => "FCOMPL"
  | .fcont => "FCONT"
  | .pas => "PAS"
  | .pfrom => "PFROM"
  | .vicget => "VICGET"
  | .vicset => "VICSET"
  | .dpreset => "DPRESET"
  | .ddefault => "DDEFAULT"
  | .tval => "TVAL"
  | .tset => "TSET"
  | .tispm => "TISPM"
  | .tsetpm => "TSETPM"
  | .thour => "THOUR"

/-- The short names of the registers (R21). -/
def registerNames : Vector String 16 :=
  #v["PRA", "PRB", "DDRA", "DDRB", "TALO", "TAHI", "TBLO", "TBHI",
     "TOD10", "TODSEC", "TODMIN", "TODHR", "SDR", "ICR", "CRA", "CRB"]

def regName (r : Reg) : String := registerNames[r.val]

/-- The type names (R27). -/
def FlagType.label : FlagType → String
  | .ic => "IC"
  | .tc => "TC"
  | .kbdA => "KBD_A"
  | .joyA => "JOY_A"
  | .kbdB => "KBD_B"
  | .joyB => "JOY_B"
  | .serA => "SER_A"
  | .vicA => "VIC_A"
  | .usrB => "USR_B"
  | .rs232B => "RS232_B"

/-- The preset names (R30). -/
def Preset.label : Preset → String
  | .cia1AKeyboard => "CIA1_A_KEYBOARD"
  | .cia1AJoystick => "CIA1_A_JOYSTICK"
  | .cia1BKeyboard => "CIA1_B_KEYBOARD"
  | .cia1BJoystick => "CIA1_B_JOYSTICK"
  | .cia2ASerialVic => "CIA2_A_SERIAL_VIC"
  | .cia2BUserport => "CIA2_B_USERPORT"
  | .cia2BRs232 => "CIA2_B_RS232"

def Port.label : Port → String
  | .A => "A"
  | .B => "B"

/-- A hexadecimal digit. -/
def hexDigit (n : BitVec 4) : Char :=
  if n.toNat < 10 then Char.ofNat (48 + n.toNat) else Char.ofNat (55 + n.toNat)

/-- A byte as `0x..` (R10, R88). -/
def hexByte (b : Byte) : String :=
  String.ofList ['0', 'x', hexDigit (b.extractLsb' 4 4), hexDigit (b.extractLsb' 0 4)]

def boolLabel (p : Bool) : String := if p then "1" else "0"

/-- The operands of an operation as a listing writes them (R88). -/
def Instr.operands : Instr → List String
  | .rd a => [regName a]
  | .wr a v => [regName a, hexByte v]
  | .ftrunc T v => [T.label, hexByte v]
  | .fexact T v => [T.label, hexByte v]
  | .funion T p q => [T.label, hexByte p, hexByte q]
  | .finter T p q => [T.label, hexByte p, hexByte q]
  | .fcompl T p => [T.label, hexByte p]
  | .fcont T p q => [T.label, hexByte p, hexByte q]
  | .pas r => [r.type.label]
  | .pfrom r v => [r.type.label, hexByte v]
  | .vicget => []
  | .vicset n => [hexByte n]
  | .dpreset p => [p.label]
  | .ddefault port => [port.label]
  | .tval => []
  | .tset h m sec t pm => [hexByte h, hexByte m, hexByte sec, hexByte t, boolLabel pm]
  | .tispm => []
  | .tsetpm pm => [boolLabel pm]
  | .thour => []

/-- A line of a listing: `MNEMONIC operand, operand, ...` (R88). -/
def Instr.listing (i : Instr) : String :=
  match i.operands with
  | [] => i.opcode.mnemonic
  | os => i.opcode.mnemonic ++ " " ++ ", ".intercalate os

/-- A response as a listing writes it after `=>` (R88). -/
def Response.listing (r : Response) : String :=
  match r.st with
  | .ok => "OK " ++ hexByte r.res
  | .fail => "FAIL"
  | .illegal => "ILLEGAL"

end Sys2Proof
end

