-- ==== Sys2Proof/Tests/Slice0.lean ====
section
/-! SUPPORT. Tests, each one step on a small state, their expected results from spec/95_test_vectors.md or the worked
example of the rule they cite; and a witness of the hypotheses of every statement that has some. -/

namespace Sys2Proof.Machine.Tests

/-! ## Helpers -/

/-- A block of each instantiation right after reset. -/
def cia1 : State := State.resetOf (Params.default .cia1)
def cia2 : State := State.resetOf (Params.default .cia2)

/-- The response to a word presented next. -/
def answer (s : State) (w : OpBits) : Option Response :=
  match step (s.present (.op w)) with
  | .next t => t.resp
  | .fault _ => none
  | .refused _ => none

/-- What a register reads after a word was presented. -/
def after (s : State) (w : OpBits) (r : Reg) : Option Byte :=
  match step (s.present (.op w)) with
  | .next t => some (t.read r)
  | .fault _ => none
  | .refused _ => none

def okay (b : Byte) : Option Response := some ⟨.ok, b⟩
def failed : Option Response := some ⟨.fail, 0x00⟩
def reserved : Option Response := some ⟨.illegal, 0x00⟩

/-- The block with its four time bytes set: hours, minutes, seconds, tenths. -/
def withTime (s : State) (h m sec t : Byte) : State :=
  (((s.write 11 h).write 10 m).write 9 sec).write 8 t

/-- The block under other settings of the two validation parameters. -/
def under (s : State) (tenths : TenthsRule) (bit7 : HourBit7) : State :=
  { s with params := { s.params with tenthsRule := tenths, hourBit7 := bit7 } }

/-! ## WellFormed: each check refuses an ill-formed operation (R85 (d)) -/

theorem test_wellFormed_pas : (Instr.pas .serA).wellFormed .cia1 = false := by decide
theorem test_wellFormed_pfrom : (Instr.pfrom .joyB 0x1F).wellFormed .cia2 = false := by decide
theorem test_wellFormed_vicget : Instr.vicget.wellFormed .cia1 = false := by decide
theorem test_wellFormed_vicset : (Instr.vicset 0x01).wellFormed .cia1 = false := by decide
theorem test_wellFormed_dpreset : (Instr.dpreset .cia2BRs232).wellFormed .cia1 = false := by decide

/-! ## Decoding: words written out from R82 to R84 -/

theorem test_decode_rd : decode 0x000B00000000 = .ok (.rd 11) := by rfl
theorem test_decode_wr : decode 0x0102FF000000 = .ok (.wr 2 0xFF) := by rfl
theorem test_decode_ftrunc : decode 0x1000FF000000 = .ok (.ftrunc .ic 0xFF) := by rfl
theorem test_decode_fexact : decode 0x110320000000 = .ok (.fexact .joyA 0x20) := by rfl
theorem test_decode_funion : decode 0x120081020000 = .ok (.funion .ic 0x81 0x02) := by rfl
theorem test_decode_finter : decode 0x13051B100000 = .ok (.finter .joyB 0x1B 0x10) := by rfl
theorem test_decode_fcompl : decode 0x14030F000000 = .ok (.fcompl .joyA 0x0F) := by rfl
theorem test_decode_fcont : decode 0x150111010000 = .ok (.fcont .tc 0x11 0x01) := by rfl
theorem test_decode_pas : decode 0x200400000000 = .ok (.pas .kbdB) := by rfl
theorem test_decode_pfrom : decode 0x210628000000 = .ok (.pfrom .serA 0x28) := by rfl
theorem test_decode_vicget : decode 0x220000000000 = .ok .vicget := by rfl
theorem test_decode_vicset : decode 0x23FE00000000 = .ok (.vicset 0xFE) := by rfl
theorem test_decode_dpreset : decode 0x300600000000 = .ok (.dpreset .cia2BRs232) := by rfl
theorem test_decode_ddefault : decode 0x310100000000 = .ok (.ddefault .B) := by rfl
theorem test_decode_tval : decode 0x400000000000 = .ok .tval := by rfl
theorem test_decode_tset : decode 0x411259580901 = .ok (.tset 0x12 0x59 0x58 0x09 true) := by rfl
theorem test_decode_tispm : decode 0x420000000000 = .ok .tispm := by rfl
theorem test_decode_tsetpm : decode 0x430100000000 = .ok (.tsetpm true) := by rfl
theorem test_decode_thour : decode 0x440000000000 = .ok .thour := by rfl

/-- T-ILL: unknown opcodes. -/
theorem test_decode_unknown_opcodes :
    [0x020000000000, 0x0F0000000000, 0x160000000000, 0x240000000000, 0x320000000000, 0x450000000000,
      0xFFFFFFFFFFFF].map decode = List.replicate 7 (.error .unknownOpcode) := by rfl

/-- T-ILL: a byte the format does not use is not 0x00. -/
theorem test_decode_unused_bytes :
    [0x400000000001, 0x420100000000, 0x000100000001, 0x1000FF010000, 0x120001020300, 0x300001000000].map
      decode = List.replicate 6 (.error .unusedByteNonzero) := by rfl

/-- T-ILL: an operand out of range. -/
theorem test_decode_operand_ranges :
    [0x001000000000, 0x100A00000000, 0x200100000000, 0x300700000000, 0x310200000000, 0x43FF00000000,
      0x411200000080].map decode = List.replicate 7 (.error .operandOutOfRange) := by rfl

/-- The host's windows: the opcode table's word decodes, and the next step runs it. -/
theorem test_decodeTableWord : decodeTableWord 48 0x010000000000 = some (.wr 0 0) := by rfl
theorem test_withFetchWord :
    step (State.reset.withFetchWord 48 0x230100000000)
      = advanced (exec (.vicset 0x01) (State.reset.withFetchWord 48 0x230100000000)) := by rfl

/-! ## Parameters and reset (R27, R30, R31, R49, R50) -/

theorem test_reset_cia1 : cia1.regs = #v[0, 0, 0xFF, 0, 0, 0, 0, 0, 0, 0, 0, 0, 0, 0, 0, 0] := by decide
theorem test_reset_cia2 : cia2.regs = #v[0, 0, 0x3F, 0, 0, 0, 0, 0, 0, 0, 0, 0, 0, 0, 0, 0] := by decide
theorem test_default_masks : FlagType.all.map cia1.params.mask
    = [0x9F, 0xFF, 0xFF, 0x1F, 0xFF, 0x1F, 0xF8, 0x03, 0xFF, 0xDF] := by decide
theorem test_default_presets : Preset.all.map (fun p => (cia1.params.preset p).value)
    = [0xFF, 0x00, 0x00, 0x00, 0x3F, 0x00, 0x06] := by decide

/-- CIA2_A_SERIAL_VIC, 0x3F: bits 5:0 are outputs, bits 7:6 inputs (R6, R30). -/
theorem test_direction_bits : (List.finRange 8).map (cia2.lineDirection .A)
    = List.replicate 6 .output ++ [.input, .input] := by decide

/-- The named bits of each role make up its default mask (R27); so for the two control types (R40, R42). -/
theorem test_named_bits_make_up_the_masks :
    (∀ r ∈ Role.all, unionOfMasks (roleFields r) = cia1.params.roleMask r) ∧
    (∀ d ∈ [IcDirection.written, .read], unionOfMasks (icFields d) = cia1.params.mask .ic) ∧
    (∀ c ∈ [TcContext.timerA, .timerB], unionOfMasks (tcFields c) = cia1.params.mask .tc) := by decide

/-! ## One step per operation, from the tables of spec/95_test_vectors.md -/

theorem test_rd_todhr : answer (cia1.write 11 0x92) 0x000B00000000 = okay 0x92 := by decide
theorem test_rd_icr_is_not_cleared :
    answer (cia1.write 13 0x7F) 0x000D00000000 = okay 0x7F
      ∧ after (cia1.write 13 0x7F) 0x000D00000000 13 = some 0x7F := by decide
theorem test_wr_stores : after cia1 0x010512000000 5 = some 0x12 := by decide
theorem test_wr_is_not_gated_by_direction :
    after (cia1.write 2 0x00) 0x0100FF000000 0 = some 0xFF := by decide
theorem test_ftrunc_ic : answer cia1 0x1000FF000000 = okay 0x9F := by decide
theorem test_ftrunc_rs232 : answer cia1 0x100920000000 = okay 0x00 := by decide
theorem test_fexact_ok : answer cia1 0x11031F000000 = okay 0x1F := by decide
theorem test_fexact_fails : answer cia1 0x110704000000 = failed := by decide
theorem test_funion_ic : answer cia1 0x120081020000 = okay 0x83 := by decide
theorem test_funion_of_the_other_instantiation : answer cia2 0x120301020000 = okay 0x03 := by decide
theorem test_finter_joyB : answer cia1 0x13051B100000 = okay 0x10 := by decide
theorem test_finter_serA : answer cia1 0x1306F80F0000 = okay 0x08 := by decide
theorem test_fcompl_joyA : answer cia1 0x14030F000000 = okay 0x10 := by decide
theorem test_fcompl_vicA : answer cia1 0x140701000000 = okay 0x02 := by decide
theorem test_fcont_truncates : answer cia1 0x15031F3F0000 = okay 0x01 := by decide
theorem test_fcont_is_not_symmetric : answer cia1 0x150510110000 = okay 0x00 := by decide
theorem test_pas_joyA : answer (cia1.write 0 0xEF) 0x200300000000 = okay 0x0F := by decide
theorem test_pas_of_the_other_instantiation : answer cia2 0x200200000000 = reserved := by decide
theorem test_pfrom_clears_the_bank_bits :
    answer (cia2.write 0 0x97) 0x210628000000 = okay 0x28
      ∧ after (cia2.write 0 0x97) 0x210628000000 0 = some 0x28 := by decide
theorem test_pfrom_rs232 : after cia2 0x2109FF000000 1 = some 0xDF := by decide
theorem test_vicget : answer (cia2.write 0 0x97) 0x220000000000 = okay 0x03 := by decide
theorem test_vicget_on_cia1 : answer cia1 0x220000000000 = reserved := by decide
theorem test_vicset : answer (cia2.write 0 0x97) 0x23FE00000000 = okay 0x96 := by decide
theorem test_vicset_stores : after (cia2.write 0 0x54) 0x230500000000 0 = some 0x55 := by decide
theorem test_dpreset_rs232 :
    answer cia2 0x300600000000 = okay 0x06 ∧ after cia2 0x300600000000 3 = some 0x06 := by decide
theorem test_dpreset_of_the_other_instantiation : answer cia1 0x300600000000 = reserved := by decide
theorem test_ddefault_a :
    answer cia2 0x310000000000 = okay 0x3F
      ∧ after (cia2.write 2 0x12) 0x310000000000 2 = some 0x3F := by decide
theorem test_ddefault_b : after (cia1.write 3 0x12) 0x310100000000 3 = some 0x00 := by decide

/-- T-VAL. -/
theorem test_tval_true : answer (withTime cia1 0x92 0x59 0x59 0x09) 0x400000000000 = okay 0x01 := by decide
theorem test_tval_false :
    answer (withTime cia1 0x1A 0x00 0x00 0x00) 0x400000000000 = okay 0x00
      ∧ answer (withTime cia1 0x09 0x5A 0x00 0x00) 0x400000000000 = okay 0x00
      ∧ answer (withTime cia1 0x80 0x00 0x00 0x00) 0x400000000000 = okay 0x00 := by decide

/-- S5, S6. -/
theorem test_tset_writes_all_four :
    answer cia1 0x411259580901 = okay 0x01
      ∧ [8, 9, 10, 11].map (after cia1 0x411259580901)
        = [some 0x09, some 0x58, some 0x59, some 0x92] := by decide
theorem test_tset_fails :
    answer (withTime cia1 0x92 0x15 0x30 0x05) 0x416300000000 = failed
      ∧ [8, 9, 10, 11].map (after (withTime cia1 0x92 0x15 0x30 0x05) 0x416300000000)
        = [some 0x05, some 0x30, some 0x15, some 0x92] := by decide

/-- T-H7: the three settings of `P_HOUR_BIT7`. -/
theorem test_tset_hour_bit7 :
    after (under cia1 .lowNibble .mask) 0x419230150500 11 = some 0x12
      ∧ answer (under cia1 .lowNibble .reject) 0x419230150500 = failed
      ∧ after (under cia1 .lowNibble .or) 0x419230150500 11 = some 0x92 := by decide

/-- T-TEN: the three settings of `P_TENTHS_RULE`. -/
theorem test_tenths_rules :
    [0x09, 0x0A, 0x10, 0x1A, 0x99, 0xA0, 0xFF].map (fun t => (tenthsOk .lowNibble t,
        tenthsOk .bothNibbles t, tenthsOk .wholeByte t))
      = [(true, true, true), (false, false, false), (true, true, false), (false, false, false),
         (true, true, false), (true, false, false), (false, false, false)] := by decide

/-- R205: ILLEGAL before FAIL. -/
theorem test_illegal_before_fail : answer cia1 0x416300000002 = reserved := by decide
theorem test_tispm_of_an_invalid_hour : answer (cia1.write 11 0x80) 0x420000000000 = okay 0x01 := by decide
theorem test_tispm_am : answer (cia1.write 11 0x12) 0x420000000000 = okay 0x00 := by decide
theorem test_tsetpm_sets : after (cia1.write 11 0x92) 0x430100000000 11 = some 0x92 := by decide
theorem test_tsetpm_clears : after (cia1.write 11 0x92) 0x430000000000 11 = some 0x12 := by decide
theorem test_thour : answer (cia1.write 11 0x92) 0x440000000000 = okay 0x12 := by decide
theorem test_thour_of_an_invalid_hour : answer (cia1.write 11 0xFF) 0x440000000000 = okay 0x7F := by decide

/-! ## The requester, pseudo-operations, listings -/

/-- R44: the run is over at the end of the sequence. -/
theorem test_run_ends : step State.reset = .fault .runEnded := by rfl

/-- R89: `WRT16 A, 0x1234` under both orders. -/
theorem test_wrt16 :
    Pseudo.expand .lowFirst (.wrt16 .A 0x1234) = [.wr 4 0x34, .wr 5 0x12] ∧
    Pseudo.expand .highFirst (.wrt16 .A 0x1234) = [.wr 4 0x12, .wr 5 0x34] := by decide

/-- R33: the 16-bit value of `x[4] = 0x34`, `x[5] = 0x12`. -/
theorem test_timer_value : ((cia1.write 4 0x34).write 5 0x12).timerValue .A = 0x1234 := by decide

theorem test_listing : (Instr.tset 0x12 0x59 0x5A 0x09 true).listing = "TSET 0x12, 0x59, 0x5A, 0x09, 1" := by decide

/-! ## Witnesses: states and operands that meet the hypotheses of the statements, each clause at a boundary value -/

/-- A state that presents the word of six bytes. -/
abbrev shows (s : State) (op a b c d e : Byte) : State := s.present (.op (word6 op a b c d e))

/-- The state `shows` gives does present that word. -/
abbrev Shown (s : State) (op a b c d e : Byte) : Prop :=
  Presents (shows s op a b c d e) (word6 op a b c d e)

theorem witness_RdAnswersTheStoredByte :
    (Shown cia1 0x00 0x0F 0 0 0 0 ∧ (0x0F : Byte).toNat < 16 ∧ AllZero [0, 0, 0, 0]) ∧
    (Shown cia1 0x00 0x10 0 0 0 0 ∧ 16 ≤ (0x10 : Byte).toNat) ∧
    (Shown cia1 0x00 0x00 0 0 0 1 ∧ ¬ AllZero [0, 0, 0, 1]) := by decide

theorem witness_WrStoresTheByte :
    (Shown cia1 0x01 0x0F 0xFF 0 0 0 ∧ (0x0F : Byte).toNat < 16 ∧ AllZero [0, 0, 0]) ∧
    (Shown cia1 0x01 0x10 0 0 0 0 ∧ 16 ≤ (0x10 : Byte).toNat) ∧
    (Shown cia1 0x01 0x00 0 1 0 0 ∧ ¬ AllZero [1, 0, 0]) := by decide

/-- The run of P1, pc 8 to 11, with a reserved word in it: a failing `TSET` stands between. -/
theorem witness_RawRoundTripLastsUntilTheNextWrite :
    ∃ (s : State) (between : List OpBits),
      s.prog.drop s.pc = .op (encode (.wr 9 0x60)) ::
        (between.map Request.op ++ .op (encode (.rd 9)) :: [.rst]) ∧
      between.length = 3 ∧
      ∀ w ∈ between, ∀ i, decodeOn s.params.inst w = .ok i → (9 : Reg) ∉ cellsWritten s.params i ∨
        ∃ h m sec t pm, i = .tset h m sec t pm ∧ ¬ TsetOperandsValid s.params h m sec t := by
  refine ⟨{ cia1 with prog := [.op (encode (.wr 9 0x60)), .op 0x400000000000, .op 0x4101001A0000,
    .op 0x020000000000, .op (encode (.rd 9)), .rst] }, [0x400000000000, 0x4101001A0000, 0x020000000000],
    rfl, rfl, ?_⟩
  intro w hw i hi
  simp only [List.mem_cons, List.not_mem_nil, or_false] at hw
  rcases hw with rfl | rfl | rfl
  · cases (show decodeOn .cia1 0x400000000000 = .ok .tval from rfl).symm.trans hi
    exact .inl (by decide)
  · cases (show decodeOn .cia1 0x4101001A0000 = .ok (.tset 0x01 0x00 0x1A 0x00 false) from rfl).symm.trans hi
    exact .inr ⟨_, _, _, _, _, rfl, by decide⟩
  · cases (show decodeOn .cia1 0x020000000000 = .error .unknownOpcode from rfl).symm.trans hi

/-- A word of the other instantiation stands between: `VICSET` on CIA1. -/
theorem witness_RawRoundTripLastsUntilTheNextWrite_other :
    ∃ (s : State) (w : OpBits),
      s.prog.drop s.pc = .op (encode (.wr 0 0x97)) :: ([w].map Request.op ++ .op (encode (.rd 0)) :: []) ∧
      decode w = .ok (.vicset 0x01) ∧ (0 : Reg) ∈ cellsWritten s.params (.vicset 0x01) ∧
      ∀ i, decodeOn s.params.inst w ≠ .ok i := by
  refine ⟨{ cia1 with prog := [.op (encode (.wr 0 0x97)), .op 0x230100000000, .op (encode (.rd 0))] },
    0x230100000000, rfl, rfl, by decide, ?_⟩
  intro i hi
  cases (show decodeOn .cia1 0x230100000000 = .error .otherInstantiation from rfl).symm.trans hi

theorem witness_FtruncAnswersTheKnownBits :
    (Shown cia1 0x10 0x09 0xFF 0 0 0 ∧ 0x09 = FlagType.rs232B.code ∧ AllZero [0, 0, 0]) ∧
    (Shown cia1 0x10 0x0A 0x00 0 0 0 ∧ 9 < (0x0A : Byte).toNat) ∧
    (Shown cia1 0x10 0x00 0x00 0 0 1 ∧ ¬ AllZero [0, 0, 1]) := by decide

theorem witness_FexactAnswersOrFails :
    (0xDF &&& ~~~(cia1.params.mask .rs232B) = 0 ∧ 0x20 &&& ~~~(cia1.params.mask .rs232B) ≠ 0) ∧
    (Shown cia1 0x11 0x09 0xDF 0 0 0 ∧ 0x09 = FlagType.rs232B.code ∧ AllZero [0, 0, 0]) ∧
    (Shown cia1 0x11 0x09 0x20 0 0 0 ∧ 0x09 = FlagType.rs232B.code) ∧
    (Shown cia1 0x11 0x0A 0x00 0 0 0 ∧ 9 < (0x0A : Byte).toNat) ∧
    (Shown cia1 0x11 0x00 0x00 1 0 0 ∧ ¬ AllZero [1, 0, 0]) := by decide

theorem witness_FunionAnswersTheUnion :
    (Shown cia1 0x12 0x09 0xFF 0x20 0 0 ∧ 0x09 = FlagType.rs232B.code ∧ AllZero [0, 0]) ∧
    (Shown cia1 0x12 0x0A 0x00 0x00 0 0 ∧ 9 < (0x0A : Byte).toNat) ∧
    (Shown cia1 0x12 0x00 0x00 0x00 1 0 ∧ ¬ AllZero [1, 0]) := by decide

theorem witness_FinterAnswersTheIntersection :
    (Shown cia1 0x13 0x09 0xFF 0x20 0 0 ∧ 0x09 = FlagType.rs232B.code ∧ AllZero [0, 0]) ∧
    (Shown cia1 0x13 0x0A 0x00 0x00 0 0 ∧ 9 < (0x0A : Byte).toNat) ∧
    (Shown cia1 0x13 0x00 0x00 0x00 1 0 ∧ ¬ AllZero [1, 0]) := by decide

theorem witness_FcomplAnswersTheComplement :
    (Shown cia1 0x14 0x09 0xFF 0 0 0 ∧ 0x09 = FlagType.rs232B.code ∧ AllZero [0, 0, 0]) ∧
    (Shown cia1 0x14 0x0A 0x00 0 0 0 ∧ 9 < (0x0A : Byte).toNat) ∧
    (Shown cia1 0x14 0x00 0x00 0 0 1 ∧ ¬ AllZero [0, 0, 1]) := by decide

theorem witness_FcontAnswersContainment :
    (Shown cia1 0x15 0x09 0xFF 0x20 0 0 ∧ 0x09 = FlagType.rs232B.code ∧ AllZero [0, 0]) ∧
    (Shown cia1 0x15 0x0A 0x00 0x00 0 0 ∧ 9 < (0x0A : Byte).toNat) ∧
    (Shown cia1 0x15 0x00 0x00 0x00 1 0 ∧ ¬ AllZero [1, 0]) := by decide

theorem witness_FlagSetOperationsArePureValues :
    cia1.params.known = (cia2.write 0 0x97).params.known ∧
    ∃ s', exec (.fexact .ic 0x20) cia1 = .next s' ∧ s'.resp = some ⟨.fail, 0x00⟩ :=
  ⟨rfl, _, rfl, rfl⟩

theorem witness_PasAnswersTheView :
    (Role.kbdA.inst = cia1.params.inst ∧ Role.serA.inst ≠ cia1.params.inst) ∧
    (Shown cia1 0x20 0x02 0 0 0 0 ∧ 0x02 = Role.kbdA.code ∧ Role.kbdA.inst = cia1.params.inst ∧ AllZero [0, 0, 0, 0]) ∧
    (Shown cia2 0x20 0x09 0 0 0 0 ∧ 0x09 = Role.rs232B.code ∧ Role.rs232B.inst = cia2.params.inst) ∧
    (Shown cia1 0x20 0x01 0 0 0 0 ∧ (0x01 : Byte).toNat < 2) ∧
    (Shown cia1 0x20 0x0A 0 0 0 0 ∧ 9 < (0x0A : Byte).toNat) ∧
    (Shown cia1 0x20 0x06 0 0 0 0 ∧ 0x06 = Role.serA.code ∧ Role.serA.inst ≠ cia1.params.inst) ∧
    (Shown cia1 0x20 0x02 1 0 0 0 ∧ ¬ AllZero [1, 0, 0, 0]) := by decide

theorem witness_PfromReplacesThePortByte :
    (Role.serA.inst = cia2.params.inst ∧ Role.joyB.inst ≠ cia2.params.inst) ∧
    (Shown cia2 0x21 0x06 0x28 0 0 0 ∧ 0x06 = Role.serA.code ∧ Role.serA.inst = cia2.params.inst ∧ AllZero [0, 0, 0]) ∧
    (Shown cia1 0x21 0x05 0xFF 0 0 0 ∧ 0x05 = Role.joyB.code ∧ Role.joyB.inst = cia1.params.inst) ∧
    (Shown cia2 0x21 0x01 0 0 0 0 ∧ (0x01 : Byte).toNat < 2) ∧
    (Shown cia2 0x21 0x0A 0 0 0 0 ∧ 9 < (0x0A : Byte).toNat) ∧
    (Shown cia2 0x21 0x05 0 0 0 0 ∧ 0x05 = Role.joyB.code ∧ Role.joyB.inst ≠ cia2.params.inst) ∧
    (Shown cia2 0x21 0x06 0 1 0 0 ∧ ¬ AllZero [1, 0, 0]) := by decide

theorem witness_VicgetAnswersTheBankBits :
    (cia2.params.inst = .cia2 ∧ cia1.params.inst = .cia1) ∧
    (Shown cia2 0x22 0 0 0 0 0 ∧ cia2.params.inst = .cia2 ∧ AllZero [0, 0, 0, 0, 0]) ∧
    (Shown cia1 0x22 0 0 0 0 0 ∧ cia1.params.inst = .cia1) ∧
    (Shown cia2 0x22 1 0 0 0 0 ∧ ¬ AllZero [1, 0, 0, 0, 0]) := by decide

theorem witness_VicsetReplacesTheBankBits :
    (cia2.params.inst = .cia2 ∧ cia1.params.inst = .cia1) ∧
    (Shown cia2 0x23 0xFE 0 0 0 0 ∧ cia2.params.inst = .cia2 ∧ AllZero [0, 0, 0, 0]) ∧
    (Shown cia1 0x23 0x01 0 0 0 0 ∧ cia1.params.inst = .cia1) ∧
    (Shown cia2 0x23 0x01 0 0 0 1 ∧ ¬ AllZero [0, 0, 0, 1]) := by decide

theorem witness_VicsetKeepsTheOtherBitsAndVicgetReadsItBack :
    cia2.params.inst = .cia2 ∧ cia2.params.mask .vicA = 0x03 := by decide

theorem witness_ViewsOfOnePortAreIndependent :
    Role.serA.inst = cia2.params.inst ∧
    Role.vicA.inst = cia2.params.inst ∧
    Role.serA.port = Role.vicA.port ∧ Role.serA ≠ Role.vicA ∧
    (Role.kbdB.inst = .cia1 ∧ Role.joyB.inst = .cia1 ∧ Role.kbdB.port = Role.joyB.port) := by decide

theorem witness_ViewRoundTripKeepsTheMaskOnly :
    Role.serA.inst = (cia2.write 0 0x97).params.inst ∧
    (cia2.write 0 0x97).read Role.serA.reg &&& ~~~((cia2.write 0 0x97).params.mask Role.serA.type) ≠ 0 := by decide

theorem witness_DpresetLoadsThePreset :
    (Preset.cia1BJoystick.inst = cia1.params.inst ∧ Preset.cia2ASerialVic.inst ≠ cia1.params.inst) ∧
    (Shown cia1 0x30 0x03 0 0 0 0 ∧ 0x03 = Preset.cia1BJoystick.code ∧ AllZero [0, 0, 0, 0]) ∧
    (Shown cia2 0x30 0x06 0 0 0 0 ∧ 0x06 = Preset.cia2BRs232.code ∧ Preset.cia2BRs232.inst = cia2.params.inst) ∧
    (Shown cia2 0x30 0x07 0 0 0 0 ∧ 6 < (0x07 : Byte).toNat) ∧
    (Shown cia1 0x30 0x04 0 0 0 0 ∧ 0x04 = Preset.cia2ASerialVic.code ∧ Preset.cia2ASerialVic.inst ≠ cia1.params.inst) ∧
    (Shown cia1 0x30 0x00 1 0 0 0 ∧ ¬ AllZero [1, 0, 0, 0]) := by decide

theorem witness_DdefaultLoadsTheDefault :
    (Shown cia1 0x31 0 0 0 0 0 ∧ cia1.params.inst = .cia1 ∧ AllZero [0, 0, 0, 0]) ∧
    (Shown cia1 0x31 1 0 0 0 0 ∧ cia1.params.inst = .cia1) ∧
    (Shown cia2 0x31 0 0 0 0 0 ∧ cia2.params.inst = .cia2) ∧
    (Shown cia2 0x31 1 0 0 0 0 ∧ cia2.params.inst = .cia2) ∧
    (Shown cia1 0x31 2 0 0 0 0 ∧ 1 < (2 : Byte).toNat) ∧
    (Shown cia1 0x31 0 0 0 1 0 ∧ ¬ AllZero [0, 0, 1, 0]) := by decide

theorem witness_DirectionRegistersInfluenceNothingElse :
    cia1.params.wf = true ∧ Instr.pas .joyA ≠ .rd 2 ∧ Instr.pas .joyA ≠ .rd 3 ∧
    (cia1.write 2 0x00).params = cia1.params ∧
    (∀ r : Reg, r ≠ 2 → r ≠ 3 → (cia1.write 2 0x00).read r = cia1.read r) ∧
    (cia1.write 2 0x00).read 2 ≠ cia1.read 2 ∧
    ∃ s', exec (.pas .joyA) cia1 = .next s' :=
  ⟨by decide, by decide, by decide, rfl, by decide, by decide, _, rfl⟩

theorem witness_TvalReportsValidity :
    (StoredTimeValid (withTime cia1 0x92 0x59 0x59 0x09) ∧ ¬ StoredTimeValid (withTime cia1 0x13 0x59 0x59 0x09)) ∧
    (Shown (withTime cia1 0x92 0x59 0x59 0x09) 0x40 0 0 0 0 0 ∧ AllZero [0, 0, 0, 0, 0]) ∧
    (Shown (withTime cia1 0x13 0x59 0x59 0x09) 0x40 0 0 0 0 0) ∧
    (Shown cia1 0x40 1 0 0 0 0 ∧ ¬ AllZero [1, 0, 0, 0, 0]) := by decide

theorem witness_TsetWritesAllFourFieldsOrNone :
    cia1.params.wf = true ∧ TsetOperandsValid cia1.params 0x12 0x59 0x59 0x09 := by decide

theorem witness_TsetWritesAllFourFieldsOrNone_or :
    TsetOperandsValid (under cia1 .wholeByte .or).params 0x92 0x59 0x59 0x09 := by decide

theorem witness_TsetWritesAllFourFieldsOrNone_rejected :
    ¬ TsetOperandsValid (under cia1 .bothNibbles .reject).params 0x92 0x59 0x59 0x09 := by decide

theorem witness_TsetWritesAllFourFieldsOrNone_invalid :
    ¬ TsetOperandsValid cia1.params 0x13 0x00 0x00 0x00 := by decide

theorem witness_TsetWritesAllFourFieldsOrNone_steps :
    (Shown cia1 0x41 0x12 0x59 0x59 0x09 0x01 ∧ 0x01 = (if true then 0x01 else (0x00 : Byte))) ∧
    (Shown cia1 0x41 0x13 0x00 0x00 0x00 0x01 ∧ (0x01 : Byte).toNat ≤ 1) ∧
    (Shown cia1 0x41 0x12 0x59 0x59 0x09 0x02 ∧ 1 < (0x02 : Byte).toNat) := by decide

theorem witness_TispmAnswersBitSeven :
    (Shown cia1 0x42 0 0 0 0 0 ∧ AllZero [0, 0, 0, 0, 0]) ∧
    (Shown cia1 0x42 0 0 0 0 1 ∧ ¬ AllZero [0, 0, 0, 0, 1]) := by decide

theorem witness_TsetpmSetsBitSeven :
    (Shown cia1 0x43 1 0 0 0 0 ∧ 1 = (if true then 0x01 else (0x00 : Byte)) ∧ AllZero [0, 0, 0, 0]) ∧
    (Shown cia1 0x43 2 0 0 0 0 ∧ 1 < (2 : Byte).toNat) ∧
    (Shown cia1 0x43 0 1 0 0 0 ∧ ¬ AllZero [1, 0, 0, 0]) := by decide

theorem witness_ThourAnswersTheHourWithoutTheFlag :
    (Shown cia1 0x44 0 0 0 0 0 ∧ AllZero [0, 0, 0, 0, 0]) ∧
    (Shown cia1 0x44 0 0 0 0 1 ∧ ¬ AllZero [0, 0, 0, 0, 1]) := by decide

theorem witness_QueriesAnswerWhatTsetSet :
    cia1.params.wf = true ∧
    cia1.params.hourBit7 = .mask ∧
    TsetOperandsValid cia1.params 0x92 0x30 0x15 0x05 := by decide

theorem witness_HourBit7SettingsAgreeOnAClearBit :
    (0x12 : Byte).getLsbD 7 = false ∧ ∃ s', exec (.tset 0x12 0x30 0x15 0x05 true) cia1 = .next s' ∧
      s'.resp = some ⟨.ok, 0x01⟩ :=
  ⟨by decide, _, rfl, by decide⟩

theorem witness_OnlyRawWritesAndResetCanSpoilAValidTime :
    ∃ s t : State, s.params.wf = true ∧ StoredTimeValid s ∧ step s = .next t ∧
      s.prog[s.pc]? ≠ some .rst ∧
      ∀ w a v, Presents s w → decode w = .ok (.wr a v) → a ∉ todCells s.params := by
  refine ⟨shows (withTime cia1 0x92 0x59 0x59 0x09) 0x43 0 0 0 0 0, _, by decide, by decide, rfl,
    by decide, ?_⟩
  intro w a v hp hd
  have hw : w = word6 0x43 0 0 0 0 0 := by
    have h := (State.fetch_present _ _).symm.trans hp
    cases h
    rfl
  subst hw
  cases (show decode (word6 0x43 0 0 0 0 0) = .ok (.tsetpm false) from rfl).symm.trans hd

theorem witness_EveryWordEndsInOneOfThreeOutcomes :
    Shown cia2 0x41 0x63 0 0 0 0 ∧
    Shown cia2 0xFF 0xFF 0xFF 0xFF 0xFF 0xFF := by decide

theorem witness_IllegalExactlyForReservedWords :
    Shown cia2 0x22 0 0 0 0 0 ∧
    Shown cia1 0x22 0 0 0 0 0 := by decide

theorem witness_ReadsHaveNoSideEffectAndOperationsAreIdempotent :
    (∃ t, exec (.rd 13) cia1 = .next t) ∧ ∃ t, exec (.vicset 0x02) (cia2.write 0 0x97) = .next t ∧
      t.read 0 = 0x96 :=
  ⟨⟨_, rfl⟩, _, rfl, by decide⟩

theorem witness_EveryRegisterChangeIsAnOperationsOwn :
    ∃ t, step (shows cia1 0x01 0x05 0x12 0 0 0) = .next t ∧
      t.read 5 ≠ (shows cia1 0x01 0x05 0x12 0 0 0).read 5 :=
  ⟨_, rfl, by decide⟩

theorem witness_OperationsDependOnTheirCellsOnly :
    (cia1.write 0 0xFF).params = cia1.params ∧
    (∀ r ∈ cellsRead cia1.params (.tsetpm true), (cia1.write 0 0xFF).read r = cia1.read r) ∧
    ∃ s', exec (.tsetpm true) cia1 = .next s' :=
  ⟨rfl, by decide, _, rfl⟩

theorem witness_OnlyRawWritesReachTimerSerialAndControlRegisters :
    cia1.params.wf = true ∧ (15 : Reg) ∈ ([4, 5, 6, 7, 12, 13, 14, 15] : List Reg) ∧
    ∃ t, step (shows cia1 0x01 0x0F 0x80 0 0 0) = .next t ∧
      t.read 15 ≠ (shows cia1 0x01 0x0F 0x80 0 0 0).read 15 :=
  ⟨by decide, by decide, _, rfl, by decide⟩

theorem witness_Wrt16ThenRdt16GivesTheValueBack :
    ∃ s : State, s.prog.drop s.pc =
      requestsOf (Pseudo.expand s.params.timerOrder (.wrt16 .B 0x1234)) ++
        (requestsOf (Pseudo.expand s.params.timerOrder (.rdt16 .B)) ++ []) :=
  ⟨{ cia1 with prog := requestsOf [.wr 6 0x34, .wr 7 0x12, .rd 6, .rd 7] }, rfl⟩

theorem witness_EncodeOfDecodeIsTheWord : decode 0x411259590901 = .ok (.tset 0x12 0x59 0x59 0x09 true) := by rfl

theorem witness_EachLegalWordSelectsOneRow :
    (⟨.vicget, 0x220000000000, 0xFFFFFFFFFFFF, anyA, cia2Only⟩ : TableRow) ∈ tableRows ∧
    (⟨.vicget, 0x220000000000, 0xFFFFFFFFFFFF, anyA, cia2Only⟩ : TableRow).Legal .cia2 0x220000000000 :=
  ⟨by simp [tableRows], by rfl, rfl, rfl⟩

theorem witness_ResetValuesOfTheSixteenRegisters :
    (Params.default .cia1).wf = true ∧
    (Params.default .cia1).image = ⟨0, 0, 0, 0, 0, 0, 0, 0, 0, 0, 0, 0, 0, 0⟩ := by decide

theorem witness_AssertingRstResetsAllSixteenRegisters :
    ((cia1.write 2 0x12).present .rst).prog[((cia1.write 2 0x12).present .rst).pc]? = some .rst := by decide

theorem witness_AStepRunsTheDecodedOperation :
    (Shown cia1 0x01 0x05 0x12 0 0 0 ∧ decode (word6 0x01 0x05 0x12 0 0 0) = .ok (.wr 5 0x12) ∧
      ∃ t, exec (.wr 5 0x12) (shows cia1 0x01 0x05 0x12 0 0 0) = .next t) ∧
    Shown cia1 0x02 0 0 0 0 0 ∧ decode (word6 0x02 0 0 0 0 0) = .error .unknownOpcode :=
  ⟨⟨by decide, rfl, _, rfl⟩, by decide, rfl⟩

theorem witness_WithFetchWordRunsThatWordNext :
    decodeTableWord 48 0x440000000000 = some .thour ∧
      ∃ t, exec .thour (State.reset.withFetchWord 48 0x440000000000) = .next t :=
  ⟨rfl, _, rfl⟩

theorem witness_NoOperationTransfersControl :
    (∃ t, exec .tval (shows cia1 0x40 0 0 0 0 0) = .next t) ∧ Shown cia1 0x40 0 0 0 0 0 ∧
      decode (word6 0x40 0 0 0 0 0) = .ok .tval :=
  ⟨⟨_, rfl⟩, by decide, rfl⟩

theorem witness_EveryFiniteRunEndsAfterItsLastRequest :
    (shows cia1 0x40 0 0 0 0 0).pc < (shows cia1 0x40 0 0 0 0 0).prog.length := by decide

theorem witness_InvariantHoldsAtReset :
    cia1.params.wf = true := by decide

theorem witness_EveryStepKeepsTheInvariant :
    Inv (shows cia1 0x41 0x63 0 0 0 0) ∧ ∃ t, step (shows cia1 0x41 0x63 0 0 0 0) = .next t :=
  ⟨⟨by decide, by decide, by intro x hx; cases hx⟩, _, rfl⟩

end Sys2Proof.Machine.Tests
end

section
/-! PROOFS. The invariant at reset and over every step (R7, R44, R81), and the direction bit sense (R6, R29). -/

namespace Sys2Proof.Machine

/-! ## The response -/

theorem responseWf_none : ResponseWf none := nofun

theorem responseWf_some_iff {st : Status} {res : Byte} :
    ResponseWf (some ⟨st, res⟩) ↔ (st ≠ .ok → res = 0x00) := by
  simp [ResponseWf]

/-! ## What every operation and every step keeps -/

/-- An operation leaves the parameters and the requester alone and answers a response the block can give (R20, R81,
R93). -/
theorem exec_keeps_config_and_answers_wf {i : Instr} {s u : State} (h : exec i s = .next u) :
    u.params = s.params ∧ u.prog = s.prog ∧ u.pc = s.pc ∧ ResponseWf u.resp := by
  obtain ⟨v, st, res, hx, hparams, hprog, hpc, hst⟩ := exec_next i s
  cases hx.symm.trans h
  exact ⟨hparams, hprog, hpc, responseWf_some_iff.2 fun hne => (hst hne).1⟩

/-- Something is presented only while the index is before the end of the sequence (R44). -/
theorem pc_lt_length_of_fetch {s : State} {q : Request} (h : s.fetch = some q) : s.pc < s.prog.length :=
  (List.getElem?_eq_some_iff.1 h).1

/-- The invariant needs of a step only this: something was presented, the block's answer `u` has the parameters and
the requester of `s`, and its response is one the block can give. -/
theorem inv_advance {s u : State} {q : Request} (hs : Inv s) (hf : s.fetch = some q)
    (hparams : u.params = s.params) (hprog : u.prog = s.prog) (hpc : u.pc = s.pc)
    (hresp : ResponseWf u.resp) : Inv u.advance := by
  obtain ⟨hwf, -, -⟩ := hs
  refine ⟨?_, ?_, hresp⟩
  · rw [State.advance_params, hparams]
    exact hwf
  · rw [State.advance_pc, State.advance_prog, hprog, hpc]
    exact pc_lt_length_of_fetch hf

theorem inv_step {s t : State} (hs : Inv s) (h : step s = .next t) : Inv t := by
  rcases step_cases h with ⟨hf, rfl⟩ | ⟨w, i, u, hf, -, hx, rfl⟩ | ⟨w, why, hf, -, rfl⟩
  · exact inv_advance hs hf rfl rfl rfl responseWf_none
  · obtain ⟨hparams, hprog, hpc, hresp⟩ := exec_keeps_config_and_answers_wf hx
    exact inv_advance hs hf hparams hprog hpc hresp
  · exact inv_advance hs hf rfl rfl rfl (responseWf_some_iff.2 fun _ => rfl)

/-- Settles O50: a step is `rst`, an operation or a reserved word, and the answer to each advances the index of a
sequence that had a request left. -/
theorem everyStepKeepsTheInvariant : Obligations.EveryStepKeepsTheInvariant :=
  fun _ _ => inv_step

/-! ## The invariant at reset -/

/-- At reset the sequence is empty, the index is 0 and there is no response, so only the condition of R7 is left. -/
theorem inv_resetOf {p : Params} (hp : p.wf = true) : Inv (State.resetOf p) :=
  ⟨hp, Nat.le_refl 0, responseWf_none⟩

theorem wf_default (inst : Inst) : (Params.default inst).wf = true := by
  cases inst <;> decide

/-- Settles O49: at reset of any block the invariant is the condition on `TOD_ORDER`, which the default order meets. -/
theorem invariantHoldsAtReset : Obligations.InvariantHoldsAtReset :=
  ⟨fun _ => inv_resetOf, inv_resetOf (wf_default .cia2)⟩

/-! ## Direction bits -/

theorem exec_wr (a : Reg) (v : Byte) (s : State) :
    exec (.wr a v) s = .next ((s.write a v).respond .ok 0x00) := rfl

/-- Each port has a direction register of its own (R21). -/
theorem ddr_injective : Function.Injective Port.ddr := by
  intro p q
  cases p <;> cases q <;> decide

/-- A direction register is no port register (R21, R32). -/
theorem ddr_ne_reg (p q : Port) : p.ddr ≠ q.reg := by
  cases p <;> cases q <;> decide

@[simp] theorem State.lineDirection_respond (s : State) (st : Status) (res : Byte) (port : Port) (i : Fin 8) :
    (s.respond st res).lineDirection port i = s.lineDirection port i := rfl

/-- The lines of a port follow the byte written to its direction register (R29). -/
theorem State.lineDirection_write_ddr_same (s : State) (port : Port) (v : Byte) (i : Fin 8) :
    (s.write port.ddr v).lineDirection port i = directionOfBit (v.getLsbD i) := by
  rw [State.lineDirection, State.read_write_same]

/-- The lines of a port do not follow the other port's direction register (R32). -/
theorem State.lineDirection_write_ddr_of_ne (s : State) {port other : Port} (h : other ≠ port) (v : Byte)
    (i : Fin 8) : (s.write port.ddr v).lineDirection other i = s.lineDirection other i := by
  rw [State.lineDirection, State.read_write_of_ne _ _ _ _ (ddr_injective.ne h.symm),
    State.lineDirection]

/-- Settles O51: the write reaches one direction register, whose bits are the directions of that port's lines. -/
theorem directionBitsSayInputOrOutput : Obligations.DirectionBitsSayInputOrOutput := by
  intro s port v
  refine ⟨_, exec_wr port.ddr v s, fun i => ?_, fun other i hne => ?_, fun p => ?_⟩
  · rw [State.lineDirection_respond, State.lineDirection_write_ddr_same]
    exact ⟨fun hbit => by rw [hbit, directionOfBit], fun hbit => by rw [hbit, directionOfBit]⟩
  · rw [State.lineDirection_respond, State.lineDirection_write_ddr_of_ne s hne]
  · rw [State.read_respond, State.read_write_of_ne _ _ _ _ (ddr_ne_reg port p)]

end Sys2Proof.Machine
end

section
/-! PROOFS. The architectural state: no operation reads a response (R45), the registers after reset (R48, R49), and the
word that the loader places (log 7, log 11). -/

namespace Sys2Proof.Machine

/-! ## An earlier response is overwritten, never read (R45) -/

section
variable (inst : Inst) (res : Byte) (s : State) (x : Option Response)

theorem ok_with_resp : ok res { s with resp := x } = ok res s := rfl

theorem raiseFail_with_resp (cause : FailCause) :
    raiseFail cause { s with resp := x } = raiseFail cause s := rfl

theorem raiseIllegal_with_resp : raiseIllegal { s with resp := x } = raiseIllegal s := rfl

theorem onlyOn_with_resp (perform : Result) :
    onlyOn inst { s with resp := x } perform = onlyOn inst s perform := by
  rw [onlyOn, onlyOn, raiseIllegal_with_resp]

end

/-- Every meaning ends in one of the three outcomes, and what it answers there is computed from registers and
parameters. -/
theorem exec_with_resp (i : Instr) (s : State) (x : Option Response) :
    exec i { s with resp := x } = exec i s := by
  cases i with
  | rd | ftrunc | funion | finter | fcompl | fcont | tval | tispm | thour => exact ok_with_resp _ s x
  | wr a v => exact ok_with_resp _ (s.write a v) x
  | ddefault port => exact ok_with_resp _ (s.write port.ddr _) x
  | tsetpm pm => exact ok_with_resp _ (s.writeHours _) x
  | pas | pfrom | vicget | vicset | dpreset => exact onlyOn_with_resp _ s x _
  | fexact T v =>
    show execFexact T v _ = execFexact T v s
    rw [execFexact, execFexact, ok_with_resp, raiseFail_with_resp]
  | tset h m sec t pm =>
    show execTset h m sec t pm _ = execTset h m sec t pm s
    rw [execTset, execTset, raiseFail_with_resp]
    exact congrArg (ite _ · _) (ok_with_resp 0x01 (s.writeTime _ m sec t) x)

/-- Settles O33: whatever the outcome, the operation's own response takes the place of the earlier one. -/
theorem noOperationReadsAnEarlierResponse : Obligations.NoOperationReadsAnEarlierResponse :=
  exec_with_resp

/-! ## The registers after reset -/

/-- The direction registers start at the defaults of the block's instantiation (R48). -/
theorem State.read_resetOf_ddr (p : Params) (port : Port) :
    (State.resetOf p).read port.ddr = p.ddrDefault port := by
  cases port <;> rfl

/-- With the default image the time-of-day registers are zero after reset, whichever field each of them holds
(R49). -/
theorem State.read_resetOf_of_mem_todCells {p : Params} (hwf : p.wf = true) (hz : p.image = .zero) {r : Reg}
    (hr : r ∈ todCells p) : (State.resetOf p).read r = 0x00 := by
  obtain ⟨-, hmem⟩ := todOrder_of_wf hwf
  have himage : ∀ r ∈ ([8, 9, 10, 11] : List Reg), (State.resetOf p).read r = 0x00 := by
    simp [State.read, State.resetOf, resetRegs, hz, ResetImage.zero]
  exact himage r (hmem r hr)

/-- Hour 0x00 is no time of day (R35), so a block reset to the default image holds none (R49). -/
theorem timeOk_resetOf_of_zero_image {p : Params} (hwf : p.wf = true) (hz : p.image = .zero) :
    (State.resetOf p).timeOk = false := by
  have hhours : (State.resetOf p).hours = 0x00 :=
    State.read_resetOf_of_mem_todCells hwf hz List.mem_cons_self
  have hinvalid : hourOk 0x00 = false := by decide
  rw [State.timeOk, todOk, hhours, hinvalid]
  simp only [Bool.false_and]

/-- An operation that ends OK on the state it was given writes no register. -/
theorem performs_of_exec_eq_ok {i : Instr} {s : State} {res : Byte} (h : exec i s = ok res s) :
    Performs i s res [] :=
  ⟨s.respond .ok res, h, rfl, nofun, fun _ _ => rfl, rfl, rfl, rfl⟩

/-- `TVAL` answers the validity of the stored time and writes nothing (R171). -/
theorem performs_tval (s : State) : Performs .tval s (boolResult s.timeOk) [] :=
  performs_of_exec_eq_ok rfl

/-- Settles O43: the direction registers by instantiation, the other fourteen by the image, and `TVAL` by the hour
0x00 of the zero image. -/
theorem resetValuesOfTheSixteenRegisters : Obligations.ResetValuesOfTheSixteenRegisters := by
  refine ⟨fun p => ⟨?_, ?_, rfl⟩, fun p hwf hz => ?_⟩
  · rw [show (2 : Reg) = Port.A.ddr from rfl, State.read_resetOf_ddr]
    cases hinst : p.inst <;> simp only [Params.ddrDefault, hinst]
  · rw [show (3 : Reg) = Port.B.ddr from rfl, State.read_resetOf_ddr]
    cases hinst : p.inst <;> simp only [Params.ddrDefault, hinst]
  · have hanswer := performs_tval (State.resetOf p)
    rwa [timeOk_resetOf_of_zero_image hwf hz] at hanswer

/-! ## The loader's word -/

/-- The host's window on the decoder hides only the reason for a rejection. -/
theorem decodeTableWord_eq_some_iff {nbits w : Nat} {i : Instr} :
    decodeTableWord nbits w = some i ↔ decode (tableWord nbits w) = .ok i := by
  unfold decodeTableWord
  split
  · next j hj => simp [hj]
  · next why hwhy => simp [hwhy]

/-- The word that the loader places is what the requester presents next (log 7, log 11). -/
theorem State.fetch_withFetchWord (s : State) (nbits w : Nat) :
    (s.withFetchWord nbits w).fetch = some (.op (tableWord nbits w)) :=
  State.fetch_present s _

/-- The step after the loader is the operation that the decoder reads from the word, with the index advanced (R44). -/
theorem step_withFetchWord {s : State} {nbits w : Nat} {i : Instr} (h : decodeTableWord nbits w = some i) :
    step (s.withFetchWord nbits w) = advanced (exec i (s.withFetchWord nbits w)) :=
  step_of_ok (s.fetch_withFetchWord nbits w) (decodeTableWord_eq_some_iff.1 h)

/-- Settles O46: placing a request touches neither registers nor parameters, and the placed word is fetched next. -/
theorem withFetchWordRunsThatWordNext : Obligations.WithFetchWordRunsThatWordNext := by
  intro s t w i hd
  refine ⟨State.present_regs s _, State.present_params s _, fun hx => ?_⟩
  rw [step_withFetchWord hd]
  exact advanced_eq_next.2 ⟨t, hx, rfl⟩

end Sys2Proof.Machine
end

section
/-! PROOFS. The register space: an operation depends on the cells it reads and changes the cells it writes (R61, R75),
reads have no side effect and operations are idempotent (R65). -/

namespace Sys2Proof.Machine

/-! ## Operations depend on the cells they read (R14, R61) -/

/-- The answer `y` at `t` repeats the answer `x` at `s`: the same response, and in every register the same byte or no
change on either side. -/
def SameEffect (s t : State) (x y : Result) : Prop :=
  ∀ s', x = .next s' → ∃ t', y = .next t' ∧ t'.resp = s'.resp ∧
    ∀ r, t'.read r = s'.read r ∨ (t'.read r = t.read r ∧ s'.read r = s.read r)

section
variable {s t : State}

/-- Two next states that end with the same status and result need only their registers compared. -/
theorem sameEffect_respond {u v : State} (st : Status) (res : Byte)
    (h : ∀ r, v.read r = u.read r ∨ (v.read r = t.read r ∧ u.read r = s.read r)) :
    SameEffect s t (.next (u.respond st res)) (.next (v.respond st res)) := by
  intro s' hs'
  cases hs'
  exact ⟨_, rfl, rfl, h⟩

theorem sameEffect_ok {res res' : Byte} (hres : res' = res) : SameEffect s t (ok res s) (ok res' t) := by
  subst hres
  exact sameEffect_respond .ok res' fun _ => .inr ⟨rfl, rfl⟩

theorem sameEffect_raiseFail (cause : FailCause) :
    SameEffect s t (raiseFail cause s) (raiseFail cause t) :=
  sameEffect_respond .fail 0x00 fun _ => .inr ⟨rfl, rfl⟩

theorem sameEffect_raiseIllegal : SameEffect s t (raiseIllegal s) (raiseIllegal t) :=
  sameEffect_respond .illegal 0x00 fun _ => .inr ⟨rfl, rfl⟩

/-- The written register is the same byte on both sides, every other is unchanged on both. -/
theorem sameEffect_ok_write {r r' : Reg} {v v' res res' : Byte} (hr : r' = r) (hv : v' = v) (hres : res' = res) :
    SameEffect s t (ok res (s.write r v)) (ok res' (t.write r' v')) := by
  subst hr hv hres
  refine sameEffect_respond .ok res' fun k => ?_
  by_cases hk : r' = k
  · subst hk
    exact .inl (by rw [State.read_write_same, State.read_write_same])
  · exact .inr ⟨State.read_write_of_ne _ _ _ _ hk, State.read_write_of_ne _ _ _ _ hk⟩

/-- The four time fields are the same bytes on both sides, every other register is unchanged on both. -/
theorem sameEffect_ok_writeTime (hp : t.params = s.params) {h h' : Byte} (hh : h' = h) (m sec tenths res : Byte) :
    SameEffect s t (ok res (s.writeTime h m sec tenths)) (ok res (t.writeTime h' m sec tenths)) := by
  subst hh
  refine sameEffect_respond .ok res fun k => ?_
  simp only [State.read_writeTime, hp]
  split_ifs
  iterate 4 exact .inl rfl
  exact .inr ⟨rfl, rfl⟩

/-- Where both sides take the same branch, the branches need to agree. -/
theorem sameEffect_ite {c c' : Prop} [Decidable c] [Decidable c'] {x x' y y' : Result} (hc : c' ↔ c)
    (hx : SameEffect s t x x') (hy : SameEffect s t y y') :
    SameEffect s t (if c then x else y) (if c' then x' else y') := by
  by_cases h : c
  · rwa [if_pos h, if_pos (hc.2 h)]
  · rwa [if_neg h, if_neg (mt hc.1 h)]

theorem sameEffect_onlyOn (hp : t.params = s.params) (inst : Inst) {x y : Result} (h : SameEffect s t x y) :
    SameEffect s t (onlyOn inst s x) (onlyOn inst t y) :=
  sameEffect_ite (by rw [hp]) h sameEffect_raiseIllegal

/-- The validity of the stored time depends on the four time registers alone (R35, R171). -/
theorem timeOk_congr (hp : t.params = s.params) (h : ∀ r ∈ todCells s.params, t.read r = s.read r) :
    t.timeOk = s.timeOk := by
  obtain ⟨hhours, hminutes, hseconds, htenths⟩ :
      t.hours = s.hours ∧ t.minutes = s.minutes ∧ t.seconds = s.seconds ∧ t.tenths = s.tenths := by
    simpa [todCells, State.hours, State.minutes, State.seconds, State.tenths, hp] using h
  rw [State.timeOk, State.timeOk, hp, hhours, hminutes, hseconds, htenths]

/-- The hours byte is one register (R34). -/
theorem hours_congr (hp : t.params = s.params)
    (h : ∀ r ∈ [s.params.todOrder.hours], t.read r = s.read r) : t.hours = s.hours := by
  rw [State.hours, State.hours, hp, List.forall_mem_singleton.1 h]

/-- Each meaning is made of the shared operations, which agree on the two states as soon as the bytes read do. -/
theorem exec_sameEffect (i : Instr) (hp : t.params = s.params)
    (hread : ∀ r ∈ cellsRead s.params i, t.read r = s.read r) : SameEffect s t (exec i s) (exec i t) := by
  cases i with
  | rd a => exact sameEffect_ok (hread a List.mem_cons_self)
  | wr a v => exact sameEffect_ok_write rfl rfl rfl
  | ftrunc | funion | finter | fcompl | fcont => exact sameEffect_ok (by rw [hp])
  | fexact T v => exact sameEffect_ite (by rw [hp]) (sameEffect_ok rfl) (sameEffect_raiseFail _)
  | pas r =>
    exact sameEffect_onlyOn hp _ (sameEffect_ok (by rw [hp, List.forall_mem_singleton.1 hread]))
  | pfrom r v => exact sameEffect_onlyOn hp _ (sameEffect_ok_write rfl (by rw [hp]) (by rw [hp]))
  | vicget => exact sameEffect_onlyOn hp _ (sameEffect_ok (by rw [List.forall_mem_singleton.1 hread]))
  | vicset n =>
    have hy : vicSet (t.read Reg.pra) n = vicSet (s.read Reg.pra) n := by
      rw [List.forall_mem_singleton.1 hread]
    exact sameEffect_onlyOn hp _ (sameEffect_ok_write rfl hy hy)
  | dpreset p => exact sameEffect_onlyOn hp _ (sameEffect_ok_write (by rw [hp]) (by rw [hp]) (by rw [hp]))
  | ddefault port => exact sameEffect_ok_write rfl (by rw [hp]) (by rw [hp])
  | tval => exact sameEffect_ok (by rw [timeOk_congr hp hread])
  | tset h m sec tenths pm =>
    exact sameEffect_ite (by rw [hp]) (sameEffect_ok_writeTime hp (by rw [hp]) _ _ _ _) (sameEffect_raiseFail _)
  | tispm | thour => exact sameEffect_ok (by rw [hours_congr hp hread])
  | tsetpm pm => exact sameEffect_ok_write (by rw [hp]) (by rw [hours_congr hp hread]) rfl

end

/-- Settles O36: the two answers are built from the same bytes. -/
theorem operationsDependOnTheirCellsOnly : Obligations.OperationsDependOnTheirCellsOnly :=
  fun i _ _ s' hp hread hx => exec_sameEffect i hp hread s' hx

/-! ## Reads and idempotence (R65) -/

/-- An operation that finds again in the cells it reads what it found before leaves the state it has left: whatever
it writes is there already. -/
theorem exec_again_of_reads_kept {i : Instr} {s t : State} (h : exec i s = .next t)
    (hkept : ∀ r ∈ cellsRead s.params i, t.read r = s.read r) : exec i t = .next t := by
  obtain ⟨hparams, -, -, -⟩ := exec_keeps_config_and_answers_wf h
  obtain ⟨u, hu, hresp, hregs⟩ := exec_sameEffect i hparams hkept t h
  obtain ⟨huparams, huprog, hupc, -⟩ := exec_keeps_config_and_answers_wf hu
  have hut : u = t :=
    State.ext_read (fun r => (hregs r).elim id And.left) huparams huprog hupc hresp
  rw [hu, hut]

/-- Writing to a register the byte it holds changes nothing (R22). -/
theorem State.write_of_read_eq {s : State} {r : Reg} {v : Byte} (h : s.read r = v) : s.write r v = s := by
  refine State.ext_read (fun k => ?_) rfl rfl rfl rfl
  rw [State.read_write]
  split
  · next hk => rw [← hk, h]
  · rfl

/-- The bank bits and the other bits are both already there (R144). -/
theorem vicSet_vicSet (x n : Byte) : vicSet (vicSet x n) n = vicSet x n := by
  apply BitVec.eq_of_getLsbD_eq
  intro k hk
  unfold vicSet
  interval_cases k <;> simp

/-- Setting the flag again to the same value does nothing (R174). -/
theorem withPm_withPm (h : Byte) (pm : Bool) : withPm (withPm h pm) pm = withPm h pm := by
  rw [withPm, hourBits_withPm, withPm]

/-- An operation that updates one register by an idempotent function, and answers from the new byte, finds the byte
as it has left it. -/
theorem exec_again_of_update {i : Instr} {s t : State} {r : Reg} {f answer : Byte → Byte}
    (hexec : ∀ u : State, u.params = s.params →
      exec i u = ok (answer (f (u.read r))) (u.write r (f (u.read r))))
    (hf : ∀ b, f (f b) = f b) (h : exec i s = .next t) : exec i t = .next t := by
  have ht := ok_eq_next.1 ((hexec s rfl).symm.trans h)
  have hparams : t.params = s.params := by rw [ht, State.respond_params, State.write_params]
  have hread : t.read r = f (s.read r) := by rw [ht, State.read_respond, State.read_write_same]
  rw [hexec t hparams, hread, hf, State.write_of_read_eq hread, ok_eq_next, ht]
  rfl

/-- The operations that read nothing they write leave their cells as they found them; `VICSET` and `TSETPM` are the two
that read the byte they write. -/
theorem exec_idempotent {i : Instr} {s t : State} (h : exec i s = .next t) : exec i t = .next t := by
  cases i with
  | rd | pas | vicget | tval | tispm | thour =>
    exact exec_again_of_reads_kept h fun r _ => exec_frame h List.not_mem_nil
  | wr | ftrunc | fexact | funion | finter | fcompl | fcont | pfrom | dpreset | ddefault | tset =>
    exact exec_again_of_reads_kept h (List.forall_mem_nil _)
  | vicset n =>
    by_cases hinst : Inst.cia2 = s.params.inst
    · exact exec_again_of_update (f := (vicSet · n)) (answer := id)
        (fun u hu => onlyOn_of_eq (by rw [hu, hinst]) _) (vicSet_vicSet · n) h
    · obtain rfl := raiseIllegal_eq_next.1 ((onlyOn_of_ne hinst _).symm.trans h)
      exact exec_again_of_reads_kept h fun _ _ => rfl
  | tsetpm pm =>
    exact exec_again_of_update (r := s.params.todOrder.hours) (f := (withPm · pm)) (answer := fun _ => 0x00)
      (fun u hu => hu ▸ rfl) (withPm_withPm · pm) h

/-- Settles O34: the six reading operations write no cell, and every operation finds its own effect in place. -/
theorem readsHaveNoSideEffectAndOperationsAreIdempotent :
    Obligations.ReadsHaveNoSideEffectAndOperationsAreIdempotent := by
  refine ⟨?_, fun _ _ _ => exec_idempotent⟩
  rintro i s t (⟨a, rfl⟩ | ⟨r, rfl⟩ | rfl | rfl | rfl | rfl) h r <;>
    exact exec_frame h List.not_mem_nil

/-! ## Every change of a register is an operation's own (R61, R75) -/

/-- Settles O35: a step that is no reset is an operation or answers ILLEGAL; an operation that is not legal on the
block answers ILLEGAL too, and a legal one changes only the registers it can write. -/
theorem everyRegisterChangeIsAnOperationsOwn : Obligations.EveryRegisterChangeIsAnOperationsOwn := by
  intro s t r h hne
  rcases step_cases h with ⟨hf, -⟩ | ⟨w, i, u, hf, hd, hx, rfl⟩ | ⟨w, why, -, -, rfl⟩
  · exact .inl hf
  · have hwf : i.wellFormed s.params.inst = true := by
      by_contra hnot
      obtain rfl := raiseIllegal_eq_next.1 ((exec_of_not_wellFormed hnot).symm.trans hx)
      exact hne rfl
    have hmem : r ∈ cellsWritten s.params i := by
      by_contra hnot
      exact hne (exec_frame hx hnot)
    exact .inr ⟨w, i, hf, hd, hwf, hmem⟩
  · exact absurd rfl hne

end Sys2Proof.Machine
end

section
/-! PROOFS. The round trip of operation words in both directions (R80, R82, R86, R87), and the spec's own words. -/

namespace Sys2Proof

/-! ## From the operation to its word and back -/

/-- Every operation's word is in the format of its row (R82, R84). -/
theorem encodesInFormat (i : Instr) : Laws.EncodesInFormat.Statement i := by
  open Laws.EncodesInFormat in
  cases i
  exacts [rd _, wr _ _, ftrunc _ _, fexact _ _, funion _ _ _, finter _ _ _, fcompl _ _, fcont _ _ _, pas _,
    pfrom _ _, vicget, vicset _, dpreset _, ddefault _, tval, tset _ _ _ _ _, tispm, tsetpm _, thour]

/-- Each operand kind's code is read back as the operand it stands for (R83). -/
theorem decodeOperands_encodeFields (i : Instr) : decodeOperands (encodeFields i) i.opcode = some i := by
  cases i with
  | rd | wr => simp only [encodeFields, Instr.opcode, decodeOperands, addrOfByte_addrByte, Option.map_some]
  | ftrunc | fexact | funion | finter | fcompl | fcont =>
    simp only [encodeFields, Instr.opcode, decodeOperands, typeOfByte_code, Option.map_some]
  | pas | pfrom => simp only [encodeFields, Instr.opcode, decodeOperands, roleOfByte_code, Option.map_some]
  | dpreset => simp only [encodeFields, Instr.opcode, decodeOperands, presetOfByte_code, Option.map_some]
  | ddefault => simp only [encodeFields, Instr.opcode, decodeOperands, portOfByte_code, Option.map_some]
  | tset | tsetpm => simp only [encodeFields, Instr.opcode, decodeOperands, boolOfByte_code, Option.map_some]
  | vicget | vicset | tval | tispm | thour => rfl

theorem decodeFields_encodeFields (i : Instr) : decodeFields (encodeFields i) = .ok i := by
  obtain ⟨hop, hunused⟩ := encodesInFormat i
  exact decodeFields_eq_ok.2 ⟨i.opcode, hop.symm, hunused, decodeOperands_encodeFields i⟩

theorem decode_encode (i : Instr) : decode (encode i) = .ok i :=
  (decode_toBits _).trans (decodeFields_encodeFields i)

/-- Step (4) of R87: the whole decoder takes the operation that the first three steps found, where it is legal on the
block. -/
theorem decodeOn_eq_ok_iff {inst : Inst} {w : OpBits} {i : Instr} :
    decodeOn inst w = .ok i ↔ decode w = .ok i ∧ i.wellFormed inst = true := by
  unfold decodeOn
  cases decode w with
  | error why => simp
  | ok j =>
    by_cases hwf : j.wellFormed inst = true
    · simp only [hwf, if_true, Except.ok.injEq]
      exact ⟨fun h => ⟨h, h ▸ hwf⟩, And.left⟩
    · simp only [hwf, Except.ok.injEq]
      exact ⟨nofun, fun ⟨h, hi⟩ => absurd (h ▸ hi) hwf⟩

/-- Six bytes that decode are taken off the front of a byte array (R80). -/
theorem decodeBytes_toBytes_append {f : OpWord} {i : Instr} (h : decodeFields f = .ok i) (rest : List Byte) :
    decodeBytes (f.toBytes ++ rest) = some (i, rest) := by
  simp only [OpWord.toBytes, List.cons_append, List.nil_append, decodeBytes, h]

/-- Settles O40: the word is in its row's format and its operand codes read back; the instantiation and the byte array
add nothing to that. -/
theorem decodeOfEncodeIsTheOperation : Obligations.DecodeOfEncodeIsTheOperation := by
  refine fun i => ⟨decode_encode i, fun inst => ?_, decodeBytes_toBytes_append (decodeFields_encodeFields i)⟩
  rw [decodeOn_eq_ok_iff, and_iff_right (decode_encode i)]

/-! ## From the word to its operation and back -/

/-- Nothing of a word is lost in decoding: the opcode byte is the row's, each operand byte is the code of what was read
from it, and the bytes left over are 0x00. -/
theorem encodeFields_of_decodeOperands {f : OpWord} {o : Opcode} {i : Instr} (hop : o.byte = f.op)
    (hunused : f.unusedZero o.format = true) (hi : decodeOperands f o = some i) : encodeFields i = f := by
  obtain ⟨op, a, b, c, d, e⟩ := f
  subst hop
  cases o with
  | rd | wr =>
    obtain ⟨r, hr, rfl⟩ := Option.map_eq_some_iff.1 hi
    simp_all [encodeFields, Instr.opcode, OpWord.unusedZero, Opcode.format, addrByte_of_addrOfByte hr]
  | ftrunc | fexact | funion | finter | fcompl | fcont | pas | pfrom | dpreset | ddefault | tsetpm | tset =>
    obtain ⟨x, hx, rfl⟩ := Option.map_eq_some_iff.1 hi
    have hcode := code_of_findCode hx
    simp_all [encodeFields, Instr.opcode, OpWord.unusedZero, Opcode.format, Role.code]
  | vicget | vicset | tval | tispm | thour =>
    cases hi
    simp_all [encodeFields, Instr.opcode, OpWord.unusedZero, Opcode.format]

theorem encode_of_decode {w : OpBits} {i : Instr} (h : decode w = .ok i) : encode i = w := by
  obtain ⟨o, hop, hunused, hi⟩ := decodeFields_eq_ok.1 h
  rw [encode, encodeFields_of_decodeOperands hop hunused hi, OpWord.toBits_ofBits]

/-- Settles O41: the six byte fields are the operation's, and they are the whole word. -/
theorem encodeOfDecodeIsTheWord : Obligations.EncodeOfDecodeIsTheWord :=
  fun _ _ => encode_of_decode

/-- Settles O39: the six legal words are the words of their operations; the four reserved ones run through R87's
checks. -/
theorem wordsOfTheSpecDecodeToTheirOperations : Obligations.WordsOfTheSpecDecodeToTheirOperations :=
  ⟨decode_encode (.rd 11), decode_encode (.wr 2 0xFF), decode_encode (.funion .ic 0x81 0x02),
    decode_encode (.pfrom .serA 0x28), decode_encode (.dpreset .cia2BRs232),
    decode_encode (.tset 0x12 0x59 0x59 0x09 true), rfl, rfl, rfl, rfl⟩

end Sys2Proof
end

section
/-! PROOFS. The opcode table (R86, R90): its rows are disjoint, and a word that is legal for a row decodes to an operation
of that row. -/

namespace Sys2Proof

/-- Each operation has an opcode byte of its own (R84). -/
theorem Opcode.byte_injective : Function.Injective Opcode.byte := fun o o' h => by
  rw [← Option.some_inj, ← Opcode.ofByte_byte o, h, Opcode.ofByte_byte]

/-! ## Operand bytes in the table's ranges (R83, R90) -/

section
variable {b : Byte}

/-- The table bounds an `addr` operand by the mask alone. -/
theorem exists_addrOfByte_of_masked (h : b &&& 0xF0 = 0) : ∃ r, addrOfByte b = some r := by
  rw [← Option.ne_none_iff_exists', ne_eq, addrOfByte_eq_none]
  revert b
  decide

theorem exists_typeOfByte_of_le (h : b.toNat ≤ 9) : ∃ T, typeOfByte b = some T := by
  rw [← Option.ne_none_iff_exists', ne_eq, typeOfByte_eq_none]
  omega

/-- The table bounds a `bool` operand by the mask alone. -/
theorem toNat_le_one_of_masked (h : b &&& 0xFE = 0) : b.toNat ≤ 1 := by
  revert b
  decide

theorem exists_boolOfByte_of_masked (h : b &&& 0xFE = 0) : ∃ p, boolOfByte b = some p := by
  rw [← Option.ne_none_iff_exists', ne_eq, boolOfByte_eq_none]
  exact (toNat_le_one_of_masked h).not_gt

theorem exists_portOfByte_of_masked (h : b &&& 0xFE = 0) : ∃ s, portOfByte b = some s := by
  rw [← Option.ne_none_iff_exists', ne_eq, portOfByte_eq_none]
  exact (toNat_le_one_of_masked h).not_gt

/-- The table's range of a `role` operand is the instantiation's own roles. -/
theorem exists_roleOfByte_of_roleA {inst : Inst} (h : Machine.roleA inst b.toNat = true) :
    ∃ r, roleOfByte b = some r ∧ r.inst = inst := by
  rw [← Option.map_eq_some_iff]
  revert b
  cases inst <;> decide

/-- The table's range of a `preset` operand is the instantiation's own presets. -/
theorem exists_presetOfByte_of_presetA {inst : Inst} (h : Machine.presetA inst b.toNat = true) :
    ∃ p, presetOfByte b = some p ∧ p.inst = inst := by
  rw [← Option.map_eq_some_iff]
  revert b
  cases inst <;> decide

end

/-! ## Unused bytes under a mask -/

/-- A byte that is 0x00 in the pattern and has no free bit in the mask is 0x00 in every word that matches. -/
theorem OpWord.unusedZero_or_and {pattern free : OpBits} {fmt : Format} (w : OpBits)
    (hpattern : (OpWord.ofBits pattern).unusedZero fmt = true) (hfree : (OpWord.ofBits free).unusedZero fmt = true) :
    (OpWord.ofBits (pattern ||| (w &&& free))).unusedZero fmt = true := by
  cases fmt <;> simp_all [OpWord.unusedZero, OpWord.ofBits, BitVec.extractLsb'_or, BitVec.extractLsb'_and]

end Sys2Proof

namespace Sys2Proof.Machine

/-! ## What a match says of the word's bytes -/

section
variable {row : TableRow} {w : OpBits}

theorem TableRow.Matches.byte (h : row.Matches w) (lo : Nat) :
    w.extractLsb' lo 8 &&& row.mask.extractLsb' lo 8 = row.pattern.extractLsb' lo 8 := by
  rw [← BitVec.extractLsb'_and, h]

/-- A word that matches is the row's pattern with the bits outside the mask free. -/
theorem TableRow.Matches.eq_or_and (h : row.Matches w) : w = row.pattern ||| (w &&& ~~~row.mask) := by
  rw [← h, ← BitVec.and_or_distrib_left, BitVec.or_not_self, BitVec.and_allOnes]

/-- Every row fixes the whole opcode byte, to that of its operation. -/
theorem opcode_byte_of_mem_tableRows : ∀ row ∈ tableRows,
    row.mask.extractLsb' 40 8 = 0xFF ∧ row.pattern.extractLsb' 40 8 = row.opcode.byte := by
  decide

/-- Every row fixes the bytes that its operation's format does not use, to 0x00 (R82). -/
theorem unusedZero_of_mem_tableRows : ∀ row ∈ tableRows,
    (OpWord.ofBits row.pattern).unusedZero row.opcode.format = true ∧
      (OpWord.ofBits (~~~row.mask)).unusedZero row.opcode.format = true := by
  decide

theorem TableRow.Matches.opcode_byte (h : row.Matches w) (hrow : row ∈ tableRows) :
    row.opcode.byte = (OpWord.ofBits w).op := by
  obtain ⟨hmask, hpattern⟩ := opcode_byte_of_mem_tableRows row hrow
  have hop := h.byte 40
  rw [hmask, hpattern] at hop
  exact hop.symm.trans BitVec.and_allOnes

theorem TableRow.Matches.unusedZero (h : row.Matches w) (hrow : row ∈ tableRows) :
    (OpWord.ofBits w).unusedZero row.opcode.format = true := by
  obtain ⟨hpattern, hfree⟩ := unusedZero_of_mem_tableRows row hrow
  rw [h.eq_or_and]
  exact OpWord.unusedZero_or_and w hpattern hfree

end

/-! ## The rows are disjoint (R90) -/

theorem eq_of_opcode_eq {row1 row2 : TableRow} (h1 : row1 ∈ tableRows) (h2 : row2 ∈ tableRows)
    (h : row1.opcode = row2.opcode) : row1 = row2 :=
  List.inj_on_of_nodup_map (show (tableRows.map TableRow.opcode).Nodup by decide) h1 h2 h

/-- The opcode byte of a word selects the row. -/
theorem eq_of_matches {w : OpBits} {row1 row2 : TableRow} (hrow1 : row1 ∈ tableRows) (hrow2 : row2 ∈ tableRows)
    (h1 : row1.Matches w) (h2 : row2.Matches w) : row1 = row2 := by
  have hbyte : row1.opcode.byte = row2.opcode.byte := (h1.opcode_byte hrow1).trans (h2.opcode_byte hrow2).symm
  exact eq_of_opcode_eq hrow1 hrow2 (Opcode.byte_injective hbyte)

/-! ## A legal word decodes (R86, R90) -/

/-- The operand bytes that the row's mask, ranges and constraint allow are operands of an operation that is legal on the
block. -/
theorem TableRow.Legal.exists_decodeOperands {row : TableRow} {inst : Inst} {w : OpBits} (h : row.Legal inst w)
    (hrow : row ∈ tableRows) :
    ∃ i, decodeOperands (OpWord.ofBits w) row.opcode = some i ∧ i.wellFormed inst = true := by
  obtain ⟨hmatch, hlegal, hinst⟩ := h
  have ha := hmatch.byte 32
  have he := hmatch.byte 0
  obtain ⟨o, pattern, mask, legalA, onInst⟩ := row
  cases o <;>
    simp only [tableRows, List.cons_append, List.nil_append, List.mem_cons, List.not_mem_nil, TableRow.mk.injEq,
      reduceCtorEq, false_and, true_and, or_false, false_or] at hrow <;>
    obtain ⟨rfl, rfl, rfl, rfl⟩ := hrow
  case rd | wr =>
    obtain ⟨r, hr⟩ := exists_addrOfByte_of_masked ha
    exact ⟨_, Option.map_eq_some_iff.2 ⟨r, hr, rfl⟩, rfl⟩
  case ftrunc | fexact | funion | finter | fcompl | fcont =>
    obtain ⟨T, hT⟩ := exists_typeOfByte_of_le (of_decide_eq_true hlegal)
    exact ⟨_, Option.map_eq_some_iff.2 ⟨T, hT, rfl⟩, rfl⟩
  case pas | pfrom =>
    obtain ⟨r, hr, hri⟩ := exists_roleOfByte_of_roleA hlegal
    exact ⟨_, Option.map_eq_some_iff.2 ⟨r, hr, rfl⟩, decide_eq_true hri⟩
  case dpreset =>
    obtain ⟨p, hp, hpi⟩ := exists_presetOfByte_of_presetA hlegal
    exact ⟨_, Option.map_eq_some_iff.2 ⟨p, hp, rfl⟩, decide_eq_true hpi⟩
  case ddefault =>
    obtain ⟨s, hs⟩ := exists_portOfByte_of_masked ha
    exact ⟨_, Option.map_eq_some_iff.2 ⟨s, hs, rfl⟩, rfl⟩
  case tsetpm =>
    obtain ⟨pm, hpm⟩ := exists_boolOfByte_of_masked ha
    exact ⟨_, Option.map_eq_some_iff.2 ⟨pm, hpm, rfl⟩, rfl⟩
  case tset =>
    obtain ⟨pm, hpm⟩ := exists_boolOfByte_of_masked he
    exact ⟨_, Option.map_eq_some_iff.2 ⟨pm, hpm, rfl⟩, rfl⟩
  case vicget | vicset =>
    cases inst
    · cases hinst
    · exact ⟨_, rfl, rfl⟩
  case tval | tispm | thour => exact ⟨_, rfl, rfl⟩

theorem TableRow.Legal.exists_decodeOn {row : TableRow} {inst : Inst} {w : OpBits} (h : row.Legal inst w)
    (hrow : row ∈ tableRows) : ∃ i, decodeOn inst w = .ok i ∧ i.opcode = row.opcode := by
  obtain ⟨i, hi, hwf⟩ := h.exists_decodeOperands hrow
  obtain ⟨hmatch, -, -⟩ := h
  have hdecode : decode w = .ok i :=
    decodeFields_eq_ok.2 ⟨row.opcode, hmatch.opcode_byte hrow, hmatch.unusedZero hrow, hi⟩
  exact ⟨i, decodeOn_eq_ok_iff.2 ⟨hdecode, hwf⟩, opcode_of_decodeOperands hi⟩

/-- Settles O42: the opcode byte selects the row, and what the row allows is what the decoder accepts. -/
theorem eachLegalWordSelectsOneRow : Obligations.EachLegalWordSelectsOneRow :=
  ⟨fun _ _ _ => eq_of_matches, fun _ _ _ hrow h => h.exists_decodeOn hrow⟩

end Sys2Proof.Machine
end

section
/-! PROOFS. The step of a presented word (R44, R87, R93), and the pseudo-operations `WRT16` and `RDT16` (R33, R89). -/

namespace Sys2Proof.Machine

/-! ## One step -/

/-- A reserved word is answered ILLEGAL and changes no register (R85, R200). -/
theorem stepIllegal_of_error {s : State} {w : OpBits} {why : Reserved} (hw : Presents s w)
    (hd : decode w = .error why) : StepIllegal s :=
  ⟨_, step_of_error hw hd, rfl, nofun, fun _ _ => rfl, rfl, rfl, rfl⟩

/-- The step of a word that decodes is the operation, with the index advanced (R44, R87). -/
theorem step_of_exec {s t : State} {w : OpBits} {i : Instr} (hw : s.fetch = some (.op w)) (hd : decode w = .ok i)
    (hx : exec i s = .next t) : step s = .next t.advance := by
  rw [step_of_ok hw hd, hx, advanced]

/-- Settles O45: the decoder's answer is the only branch of the step of a word. -/
theorem aStepRunsTheDecodedOperation : Obligations.AStepRunsTheDecodedOperation :=
  ⟨fun _ _ _ _ => step_of_exec, fun _ _ _ => stepIllegal_of_error⟩

/-- Settles O47: the operation leaves the requester alone, and the step around it adds one to the index. -/
theorem noOperationTransfersControl : Obligations.NoOperationTransfersControl := by
  intro i s t hx
  obtain ⟨hparams, hprog, hpc, -⟩ := exec_keeps_config_and_answers_wf hx
  refine ⟨hpc, hprog, hparams, fun w hw hd => ⟨t.advance, step_of_exec hw hd hx, ?_⟩⟩
  rw [State.advance_pc, hpc]

/-! ## `WRT16` and then `RDT16` (R89) -/

/-- The two bytes of a 16-bit value compose to it under either order (R33). -/
theorem pairValue_pairFirst_pairSecond (order : TimerOrder) (v : BitVec 16) :
    pairValue order (pairFirst order v) (pairSecond order v) = v := by
  cases order <;> exact BitVec.extractLsb'_append_extractLsb'_eq_extractLsb' rfl |>.trans BitVec.extractLsb'_eq_self

/-- The two bytes of a timer stand in two registers (R21). -/
theorem Timer.second_ne_first (timer : Timer) : timer.second ≠ timer.first := by
  cases timer <;> decide

theorem exec_rd (a : Reg) (s : State) : exec (.rd a) s = .next (s.respond .ok (s.read a)) := rfl

/-- Where the sequence goes on with the word of an operation, the step is the operation, and the rest of the sequence is
left (R44). -/
theorem step_of_drop_encode {s t : State} {i : Instr} {rest : List Request}
    (h : s.prog.drop s.pc = .op (encode i) :: rest) (hx : exec i s = .next t) :
    step s = .next t.advance ∧ t.advance.prog.drop t.advance.pc = rest := by
  obtain ⟨hfetch, hrest⟩ := fetch_of_drop h
  obtain ⟨-, hprog, hpc, -⟩ := exec_keeps_config_and_answers_wf hx
  exact ⟨step_of_exec hfetch (decode_encode i) hx, hrest _ hprog (congrArg (· + 1) hpc)⟩

/-- Settles O38: two writes to two registers, then the reads of the same two in the same order, so the bytes come back as
they were taken from the value. -/
theorem wrt16ThenRdt16GivesTheValueBack : Obligations.Wrt16ThenRdt16GivesTheValueBack := by
  intro s timer v rest h
  obtain ⟨hwrite1, h1⟩ := step_of_drop_encode h (exec_wr _ _ s)
  obtain ⟨hwrite2, h2⟩ := step_of_drop_encode h1 (exec_wr _ _ _)
  obtain ⟨hread1, h3⟩ := step_of_drop_encode h2 (exec_rd _ _)
  obtain ⟨hread2, -⟩ := step_of_drop_encode h3 (exec_rd _ _)
  refine ⟨_, _, _, _, ?_, hread2, ?_, rfl, rfl, ?_⟩
  · rw [run_succ_of_step hwrite1, run_succ_of_step hwrite2, run_succ_of_step hread1]
    rfl
  · simp [State.timerValue, State.read_write_of_ne, timer.second_ne_first, pairValue_pairFirst_pairSecond]
  · simp [State.read_write_of_ne, timer.second_ne_first, pairValue_pairFirst_pairSecond]

end Sys2Proof.Machine
end

section
/-! PROOFS. Raw register access (spec/40_raw_access.md): the words of an opcode byte, `RD` and `WR` on both levels
(R110, R111), the raw round trip (R112), and the registers that only a raw write reaches (R113). -/

namespace Sys2Proof

/-- The bytes that a format does not use (R82). -/
def OpWord.unusedBytes (f : OpWord) : Format → List Byte
  | .N => [f.a, f.b, f.c, f.d, f.e]
  | .A | .R | .V | .P | .B => [f.b, f.c, f.d, f.e]
  | .AV | .T1 | .RV => [f.c, f.d, f.e]
  | .T2 => [f.d, f.e]
  | .TOD => []

theorem OpWord.unusedZero_iff {f : OpWord} {fmt : Format} :
    f.unusedZero fmt = true ↔ Machine.AllZero (f.unusedBytes fmt) := by
  cases fmt <;> simp [OpWord.unusedZero, OpWord.unusedBytes, Machine.AllZero, and_assoc]

theorem addrOfByte_of_lt {b : Byte} (h : b.toNat < 16) : addrOfByte b = some ⟨b.toNat, h⟩ :=
  dif_pos h

end Sys2Proof

namespace Sys2Proof.Machine

/-! ## The words of one opcode byte (R80, R87) -/

theorem decode_word6 (op a b c d e : Byte) : decode (word6 op a b c d e) = decodeFields ⟨op, a, b, c, d, e⟩ :=
  decode_toBits ⟨op, a, b, c, d, e⟩

section
variable {s : State} {o : Opcode} {a b c d e : Byte}

/-- A word of a row with its unused bytes 0x00 and its operands in range: the step does what the operation does, and the
index advances (R44). -/
theorem does_step_of_word6 {i : Instr} {st : Status} {res : Byte} {written : List (Reg × Byte)}
    (hw : Presents s (word6 o.byte a b c d e)) (hz : AllZero (OpWord.unusedBytes ⟨o.byte, a, b, c, d, e⟩ o.format))
    (hi : decodeOperands ⟨o.byte, a, b, c, d, e⟩ o = some i) (hx : Does (exec i s) s st res written s.pc) :
    Does (step s) s st res written (s.pc + 1) := by
  have hdecode : decode (word6 o.byte a b c d e) = .ok i :=
    (decode_word6 ..).trans (decodeFields_eq_ok.2 ⟨o, rfl, OpWord.unusedZero_iff.2 hz, hi⟩)
  obtain ⟨t, ht, hresp, hwritten, hframe, hparams, hprog, hpc⟩ := hx
  exact ⟨t.advance, step_of_exec hw hdecode ht, hresp, hwritten, hframe, hparams, hprog, congrArg (· + 1) hpc⟩

/-- A word of a row with a nonzero unused byte or an operand out of range is ILLEGAL (R85 (b), (c)). -/
theorem stepIllegal_of_word6 (hw : Presents s (word6 o.byte a b c d e))
    (h : decodeOperands ⟨o.byte, a, b, c, d, e⟩ o = none ∨
      ¬ AllZero (OpWord.unusedBytes ⟨o.byte, a, b, c, d, e⟩ o.format)) : StepIllegal s := by
  obtain ⟨why, hwhy⟩ := decodeFields_error_of_row (f := ⟨o.byte, a, b, c, d, e⟩) rfl
    (h.symm.imp_left fun hz => Bool.eq_false_iff.2 (mt OpWord.unusedZero_iff.1 hz))
  exact stepIllegal_of_error hw ((decode_word6 ..).trans hwhy)

end

/-! ## `RD` and `WR` (R110, R111) -/

/-- An operation that ends OK on the state with one register written writes exactly that register. -/
theorem performs_of_exec_eq_ok_write {i : Instr} {s : State} {res v : Byte} {r : Reg}
    (h : exec i s = ok res (s.write r v)) : Performs i s res [(r, v)] := by
  refine ⟨(s.write r v).respond .ok res, h, rfl, ?_, fun k hk => ?_, rfl, rfl, rfl⟩
  · exact List.forall_mem_singleton.2 (State.read_write_same s r v)
  · exact State.read_write_of_ne _ _ _ _ (Ne.symm (List.ne_of_not_mem_cons hk))

theorem performs_rd (a : Reg) (s : State) : Performs (.rd a) s (s.read a) [] :=
  performs_of_exec_eq_ok (exec_rd a s)

theorem performs_wr (a : Reg) (v : Byte) (s : State) : Performs (.wr a v) s 0x00 [(a, v)] :=
  performs_of_exec_eq_ok_write (exec_wr a v s)

/-- Settles O1: `RD` ends OK on the state it was given; its row leaves bytes `b` to `e` unused and takes an offset below
0x10 in byte `a`. -/
theorem rdAnswersTheStoredByte : Obligations.RdAnswersTheStoredByte := by
  refine ⟨fun s a => performs_rd a s, fun s a b c d e hw => ⟨fun ha hz => ?_, fun h => ?_⟩⟩
  · exact does_step_of_word6 (o := .rd) hw hz
      (Option.map_eq_some_iff.2 ⟨_, addrOfByte_of_lt ha, rfl⟩) (performs_rd _ s)
  · exact stepIllegal_of_word6 (o := .rd) hw
      (h.imp_left fun ha => Option.map_eq_none_iff.2 ((addrOfByte_eq_none a).2 ha))

/-- Settles O2: `WR` ends OK on the state with `x[a]` written; its row leaves bytes `c` to `e` unused and takes an
offset below 0x10 in byte `a`. -/
theorem wrStoresTheByte : Obligations.WrStoresTheByte := by
  refine ⟨fun s a v => performs_wr a v s, fun s a v c d e hw => ⟨fun ha hz => ?_, fun h => ?_⟩⟩
  · exact does_step_of_word6 (o := .wr) hw hz
      (Option.map_eq_some_iff.2 ⟨_, addrOfByte_of_lt ha, rfl⟩) (performs_wr _ v s)
  · exact stepIllegal_of_word6 (o := .wr) hw
      (h.imp_left fun ha => Option.map_eq_none_iff.2 ((addrOfByte_eq_none a).2 ha))

/-! ## The raw round trip (R112) -/

/-- The word writes no `x[a]`: it is reserved on the block's instantiation, its operation cannot write the register, or
it is a `TSET` that fails (R61, R112). -/
def SparesRegister (p : Params) (a : Reg) (w : OpBits) : Prop :=
  ∀ i, decodeOn p.inst w = .ok i → a ∉ cellsWritten p i ∨
    ∃ h m sec t pm, i = .tset h m sec t pm ∧ ¬ TsetOperandsValid p h m sec t

/-- Every word is answered; the step keeps the parameters and the sequence and advances the index (R20, R44, R93). -/
theorem step_of_word {s : State} {w : OpBits} (hf : s.fetch = some (.op w)) :
    ∃ t, step s = .next t ∧ t.params = s.params ∧ t.prog = s.prog ∧ t.pc = s.pc + 1 := by
  cases hd : decode w with
  | error why => exact ⟨_, step_of_error hf hd, rfl, rfl, rfl⟩
  | ok i =>
    obtain ⟨u, st, res, hx, hparams, hprog, hpc, -⟩ := exec_next i s
    exact ⟨_, step_of_exec hf hd hx, hparams, hprog, congrArg (· + 1) hpc⟩

/-- A `RD a` after any number of words that spare `x[a]` answers what the register holds before them. -/
theorem run_between_then_rd {a : Reg} {rest : List Request} (between : List OpBits) {s : State}
    (hdrop : s.prog.drop s.pc = between.map Request.op ++ .op (encode (.rd a)) :: rest)
    (hspare : ∀ w ∈ between, SparesRegister s.params a w) :
    ∃ t : State, Host.Core.run core (between.length + 1) s = .next t ∧
      t.resp = some ⟨.ok, s.read a⟩ ∧ t.read a = s.read a := by
  induction between generalizing s with
  | nil =>
    obtain ⟨hstep, -⟩ := step_of_drop_encode hdrop (exec_rd a s)
    exact ⟨_, run_succ_of_step hstep, rfl, rfl⟩
  | cons w between ih =>
    obtain ⟨hw, hbetween⟩ := List.forall_mem_cons.1 hspare
    obtain ⟨hfetch, hrest⟩ := fetch_of_drop hdrop
    obtain ⟨u, hstep, hparams, hprog, hpc⟩ := step_of_word hfetch
    have hread : u.read a = s.read a := step_frame hfetch hstep hw
    rw [List.length_cons, run_succ_of_step hstep, ← hread]
    exact ih (hrest u hprog hpc) (hparams ▸ hbetween)

/-- Settles O3: the `WR` puts `v` in the register, and the words between leave it there for the `RD`, by induction on
those words. -/
theorem rawRoundTripLastsUntilTheNextWrite : Obligations.RawRoundTripLastsUntilTheNextWrite := by
  intro s a v between rest hdrop hspare
  obtain ⟨hwrite, hrest⟩ := step_of_drop_encode hdrop (exec_wr a v s)
  rw [run_succ_of_step hwrite]
  have hrun := run_between_then_rd between hrest hspare
  rwa [State.read_advance, State.read_respond, State.read_write_same] at hrun

/-! ## The registers that only a raw write reaches (R113) -/

/-- The timer, serial, interrupt-control and timer-control registers (R21). -/
def rawOnlyCells : List Reg := [4, 5, 6, 7, 12, 13, 14, 15]

theorem port_reg_not_mem_rawOnlyCells (port : Port) : port.reg ∉ rawOnlyCells := by
  cases port <;> decide

theorem port_ddr_not_mem_rawOnlyCells (port : Port) : port.ddr ∉ rawOnlyCells := by
  cases port <;> decide

/-- `TOD_ORDER` gives the time fields offsets 0x08 to 0x0B only (R7). -/
theorem not_mem_rawOnlyCells_of_mem_todCells {p : Params} (hwf : p.wf = true) {r : Reg} (hr : r ∈ todCells p) :
    r ∉ rawOnlyCells := by
  obtain ⟨-, hmem⟩ := todOrder_of_wf hwf
  have hdisjoint : ∀ r ∈ ([8, 9, 10, 11] : List Reg), r ∉ rawOnlyCells := by decide
  exact hdisjoint r (hmem r hr)

/-- Every writing operation but `WR` has its own kind of register: a port, a direction register or a time field. -/
theorem eq_wr_of_mem_rawOnlyCells {p : Params} (hwf : p.wf = true) {i : Instr} {r : Reg} (hr : r ∈ rawOnlyCells)
    (hi : r ∈ cellsWritten p i) : ∃ v, i = .wr r v := by
  cases i with
  | wr a v => exact ⟨v, by rw [List.mem_singleton.1 hi]⟩
  | pfrom role v =>
    obtain rfl := List.mem_singleton.1 hi
    exact absurd hr (port_reg_not_mem_rawOnlyCells role.port)
  | vicset n =>
    obtain rfl := List.mem_singleton.1 hi
    exact absurd hr (port_reg_not_mem_rawOnlyCells .A)
  | dpreset | ddefault =>
    obtain rfl := List.mem_singleton.1 hi
    exact absurd hr (port_ddr_not_mem_rawOnlyCells _)
  | tset h m sec t pm => exact absurd hr (not_mem_rawOnlyCells_of_mem_todCells hwf hi)
  | tsetpm pm =>
    have htod : r ∈ todCells p := List.mem_singleton.1 hi ▸ List.mem_cons_self
    exact absurd hr (not_mem_rawOnlyCells_of_mem_todCells hwf htod)
  | rd | ftrunc | fexact | funion | finter | fcompl | fcont | pas | vicget | tval | tispm | thour =>
    exact absurd hi List.not_mem_nil

/-- Settles O37: the change is the own of an operation that can write the register, and `WR` is the only one. -/
theorem onlyRawWritesReachTimerSerialAndControlRegisters :
    Obligations.OnlyRawWritesReachTimerSerialAndControlRegisters := by
  intro s t r hwf hr hstep hne
  refine (everyRegisterChangeIsAnOperationsOwn s t r hstep hne).imp_right ?_
  rintro ⟨w, i, hw, hdecode, -, hmem⟩
  obtain ⟨v, rfl⟩ := eq_wr_of_mem_rawOnlyCells hwf hr hmem
  exact ⟨w, v, hw, hdecode⟩

end Sys2Proof.Machine
end

section
/-! PROOFS. Flag-set values (spec/41_flagset_ops.md): the words whose first operand is a type, the six operations on both
levels (R121 to R126), and their independence of everything but the known-bit masks (R127). -/

namespace Sys2Proof.Machine

/-! ## Words with a `type` operand in byte `a` (R83, R87) -/

section
variable {s : State} {o : Opcode} {a b c d e : Byte} {mk : FlagType → Instr}
variable (hmk : decodeOperands ⟨o.byte, a, b, c, d, e⟩ o = (typeOfByte a).map mk)
  (hw : Presents s (word6 o.byte a b c d e))
include hmk hw

/-- With the code of a type in byte `a` and its unused bytes 0x00, the word is the operation on that type. -/
theorem does_step_of_type_word {T : FlagType} {st : Status} {res : Byte} {written : List (Reg × Byte)}
    (ha : a = T.code) (hz : AllZero (OpWord.unusedBytes ⟨o.byte, a, b, c, d, e⟩ o.format))
    (hx : Does (exec (mk T) s) s st res written s.pc) : Does (step s) s st res written (s.pc + 1) := by
  have hT : typeOfByte a = some T := ha ▸ typeOfByte_code T
  exact does_step_of_word6 hw hz (hmk.trans (congrArg (Option.map mk) hT)) hx

/-- With a byte `a` above the type codes, or an unused byte that is not 0x00, the word is ILLEGAL. -/
theorem stepIllegal_of_type_word
    (h : 9 < a.toNat ∨ ¬ AllZero (OpWord.unusedBytes ⟨o.byte, a, b, c, d, e⟩ o.format)) : StepIllegal s :=
  stepIllegal_of_word6 hw (h.imp_left fun ha =>
    hmk.trans (Option.map_eq_none_iff.2 ((typeOfByte_eq_none a).2 ha)))

/-- The words of an operation that ends OK for every type and writes no register. -/
theorem type_word_stepOk_and_stepIllegal {res : FlagType → Byte} (hx : ∀ T, Performs (mk T) s (res T) []) :
    (∀ T : FlagType, a = T.code → AllZero (OpWord.unusedBytes ⟨o.byte, a, b, c, d, e⟩ o.format) →
      StepOk s (res T) []) ∧
    (9 < a.toNat ∨ ¬ AllZero (OpWord.unusedBytes ⟨o.byte, a, b, c, d, e⟩ o.format) → StepIllegal s) :=
  ⟨fun T ha hz => does_step_of_type_word hmk hw ha hz (hx T), stepIllegal_of_type_word hmk hw⟩

end

/-! ## What each operation does (R121 to R126) -/

/-- An operation that ends FAIL changes no register. -/
theorem fails_of_exec_eq_raiseFail {i : Instr} {s : State} {cause : FailCause} (h : exec i s = raiseFail cause s) :
    Fails i s :=
  ⟨s.respond .fail 0x00, h, rfl, nofun, fun _ _ => rfl, rfl, rfl, rfl⟩

/-- `exact_T` is defined where the byte has no bit outside the mask (R13). -/
theorem isExact_iff {k v : Byte} : isExact k v = true ↔ v &&& ~~~k = 0 := beq_iff_eq

/-- The result byte of a containment (R81, R126). -/
theorem boolResult_contains (k p q : Byte) :
    boolResult (contains k p q) = if (p &&& k) &&& (q &&& k) = q &&& k then 0x01 else 0x00 := by
  simp only [boolResult, contains, trunc, beq_iff_eq]

section
variable (s : State) (T : FlagType) (v p q : Byte)

theorem performs_ftrunc : Performs (.ftrunc T v) s (v &&& s.params.mask T) [] :=
  performs_of_exec_eq_ok rfl

theorem exec_fexact : exec (.fexact T v) s =
    if isExact (s.params.mask T) v then ok v s else raiseFail .unknownBits s := rfl

theorem performs_fexact (h : v &&& ~~~(s.params.mask T) = 0) : Performs (.fexact T v) s v [] :=
  performs_of_exec_eq_ok ((exec_fexact s T v).trans (if_pos (isExact_iff.2 h)))

theorem fails_fexact (h : v &&& ~~~(s.params.mask T) ≠ 0) : Fails (.fexact T v) s :=
  fails_of_exec_eq_raiseFail ((exec_fexact s T v).trans (if_neg (mt isExact_iff.1 h)))

theorem performs_funion : Performs (.funion T p q) s ((p ||| q) &&& s.params.mask T) [] :=
  performs_of_exec_eq_ok rfl

theorem performs_finter : Performs (.finter T p q) s (p &&& q &&& s.params.mask T) [] :=
  performs_of_exec_eq_ok rfl

theorem performs_fcompl : Performs (.fcompl T p) s (~~~p &&& s.params.mask T) [] :=
  performs_of_exec_eq_ok rfl

theorem performs_fcont : Performs (.fcont T p q) s
    (if (p &&& s.params.mask T) &&& (q &&& s.params.mask T) = q &&& s.params.mask T then 0x01 else 0x00) [] :=
  boolResult_contains (s.params.mask T) p q ▸ performs_of_exec_eq_ok rfl

end

/-- Settles O4: `FTRUNC` ends OK for every type and byte; its row is the type and the byte, and bytes `c` to `e`
unused. -/
theorem ftruncAnswersTheKnownBits : Obligations.FtruncAnswersTheKnownBits :=
  ⟨performs_ftrunc, fun s _ v _ _ _ hw =>
    type_word_stepOk_and_stepIllegal (o := .ftrunc) rfl hw fun T => performs_ftrunc s T v⟩

/-- Settles O5: the two outcomes of `FEXACT` are the two branches of its test for a bit outside the mask. -/
theorem fexactAnswersOrFails : Obligations.FexactAnswersOrFails := by
  refine ⟨performs_fexact, fails_fexact, fun s a v c d e hw => ⟨fun T ha hz hv => ?_, fun T ha hz hv => ?_, ?_⟩⟩
  · exact does_step_of_type_word (o := .fexact) rfl hw ha hz (performs_fexact s T v hv)
  · exact does_step_of_type_word (o := .fexact) rfl hw ha hz (fails_fexact s T v hv)
  · exact stepIllegal_of_type_word (o := .fexact) rfl hw

/-- Settles O6: `FUNION` ends OK for every type and both bytes; its row leaves bytes `d` and `e` unused. -/
theorem funionAnswersTheUnion : Obligations.FunionAnswersTheUnion :=
  ⟨performs_funion, fun s _ p q _ _ hw =>
    type_word_stepOk_and_stepIllegal (o := .funion) rfl hw fun T => performs_funion s T p q⟩

/-- Settles O7: `FINTER` ends OK for every type and both bytes; its row leaves bytes `d` and `e` unused. -/
theorem finterAnswersTheIntersection : Obligations.FinterAnswersTheIntersection :=
  ⟨performs_finter, fun s _ p q _ _ hw =>
    type_word_stepOk_and_stepIllegal (o := .finter) rfl hw fun T => performs_finter s T p q⟩

/-- Settles O8: `FCOMPL` ends OK for every type and byte; its row leaves bytes `c` to `e` unused. -/
theorem fcomplAnswersTheComplement : Obligations.FcomplAnswersTheComplement :=
  ⟨performs_fcompl, fun s _ p _ _ _ hw =>
    type_word_stepOk_and_stepIllegal (o := .fcompl) rfl hw fun T => performs_fcompl s T p⟩

/-- Settles O9: `FCONT` ends OK with 0x01 or 0x00 for every type and both bytes; its row leaves bytes `d` and `e`
unused. -/
theorem fcontAnswersContainment : Obligations.FcontAnswersContainment :=
  ⟨performs_fcont, fun s _ p q _ _ hw =>
    type_word_stepOk_and_stepIllegal (o := .fcont) rfl hw fun T => performs_fcont s T p q⟩

/-! ## Functions of the word and `K` alone (R127) -/

/-- The six value operations (R120), in the words of the statement. -/
def IsFlagSetOperation (i : Instr) : Prop :=
  (∃ T v, i = .ftrunc T v) ∨ (∃ T v, i = .fexact T v) ∨ (∃ T p q, i = .funion T p q) ∨
    (∃ T p q, i = .finter T p q) ∨ (∃ T p, i = .fcompl T p) ∨ (∃ T p q, i = .fcont T p q)

/-- A mask is looked up in `K` and nowhere else (R27). -/
theorem mask_congr {p p' : Params} (h : p.known = p'.known) : p.mask = p'.mask := by
  funext T
  cases T <;> simp only [Params.mask, h]

theorem IsFlagSetOperation.cellsWritten_eq_nil {i : Instr} (h : IsFlagSetOperation i) (p : Params) :
    cellsWritten p i = [] := by
  rcases h with ⟨T, v, rfl⟩ | ⟨T, v, rfl⟩ | ⟨T, v, w, rfl⟩ | ⟨T, v, w, rfl⟩ | ⟨T, v, rfl⟩ | ⟨T, v, w, rfl⟩ <;> rfl

/-- A flag-set operation changes no register (R127). -/
theorem IsFlagSetOperation.read_eq {i : Instr} {s t : State} (h : IsFlagSetOperation i) (hx : exec i s = .next t)
    (r : Reg) : t.read r = s.read r := by
  refine exec_frame hx ?_
  rw [h.cellsWritten_eq_nil]
  exact List.not_mem_nil

/-- Under the same masks the results are the same, and `FEXACT` takes the same branch. -/
theorem IsFlagSetOperation.sameEffect {i : Instr} {s t : State} (h : IsFlagSetOperation i)
    (hknown : s.params.known = t.params.known) : SameEffect s t (exec i s) (exec i t) := by
  have hmask : t.params.mask = s.params.mask := mask_congr hknown.symm
  rcases h with ⟨T, v, rfl⟩ | ⟨T, v, rfl⟩ | ⟨T, v, w, rfl⟩ | ⟨T, v, w, rfl⟩ | ⟨T, v, rfl⟩ | ⟨T, v, w, rfl⟩
  case inr.inl =>
    exact sameEffect_ite (by rw [hmask]) (sameEffect_ok rfl) (sameEffect_raiseFail _)
  all_goals exact sameEffect_ok (by rw [hmask])

/-- Settles O10: the response is the same because the masks are, and neither side writes a register. -/
theorem flagSetOperationsArePureValues : Obligations.FlagSetOperationsArePureValues := by
  intro i s t s' (hi : IsFlagSetOperation i) hknown hx
  obtain ⟨t', ht, hresp, -⟩ := hi.sameEffect hknown s' hx
  exact ⟨hi.read_eq hx, t', ht, hresp, hi.read_eq ht⟩

end Sys2Proof.Machine
end

section
/-! PROOFS. Port views (spec/42_port_views.md): the words that exist on one instantiation only, `PAS`, `PFROM`, `VICGET` and
`VICSET` on both levels (R142, R143, R145, R146), the VIC-bank bits (R144), two views of one port (R147), and the round
trip of a view (R148). -/

namespace Sys2Proof.Machine

/-! ## Operations of the other instantiation (R85 (d), R87) -/

theorem isIllegal_of_not_wellFormed {i : Instr} {s : State} (h : i.wellFormed s.params.inst ≠ true) : IsIllegal i s :=
  ⟨s.respond .illegal 0x00, exec_of_not_wellFormed h, rfl, nofun, fun _ _ => rfl, rfl, rfl, rfl⟩

section
variable {s : State} {o : Opcode} {a b c d e : Byte} (hw : Presents s (word6 o.byte a b c d e))
include hw

/-- The word of an operation that is ILLEGAL on the block is ILLEGAL, whatever its unused bytes are. -/
theorem stepIllegal_of_isIllegal {i : Instr} (hi : decodeOperands ⟨o.byte, a, b, c, d, e⟩ o = some i)
    (hx : IsIllegal i s) : StepIllegal s := by
  by_cases hz : AllZero (OpWord.unusedBytes ⟨o.byte, a, b, c, d, e⟩ o.format)
  · exact does_step_of_word6 hw hz hi hx
  · exact stepIllegal_of_word6 hw (.inr hz)

/-- The words of an operation on a role: ILLEGAL with a byte `a` that is no role's code, with a role of the other
instantiation, or with an unused byte that is not 0x00; the operation on the role otherwise (R83, R87). -/
theorem role_word_stepOk_and_stepIllegal {mk : Role → Instr} {res : Role → Byte} {written : Role → List (Reg × Byte)}
    (hmk : decodeOperands ⟨o.byte, a, b, c, d, e⟩ o = (roleOfByte a).map mk)
    (hok : ∀ r, r.inst = s.params.inst → Performs (mk r) s (res r) (written r))
    (hillegal : ∀ r, r.inst ≠ s.params.inst → IsIllegal (mk r) s) :
    (∀ r : Role, a = r.code → r.inst = s.params.inst →
      AllZero (OpWord.unusedBytes ⟨o.byte, a, b, c, d, e⟩ o.format) → StepOk s (res r) (written r)) ∧
    (a.toNat < 2 ∨ 9 < a.toNat ∨ (∃ r : Role, a = r.code ∧ r.inst ≠ s.params.inst) ∨
      ¬ AllZero (OpWord.unusedBytes ⟨o.byte, a, b, c, d, e⟩ o.format) → StepIllegal s) := by
  have hrole : ∀ r : Role, a = r.code → decodeOperands ⟨o.byte, a, b, c, d, e⟩ o = some (mk r) := by
    rintro r rfl
    rw [hmk, roleOfByte_code, Option.map_some]
  have hno_role : a.toNat < 2 ∨ 9 < a.toNat → decodeOperands ⟨o.byte, a, b, c, d, e⟩ o = none := fun ha => by
    rw [hmk, (roleOfByte_eq_none a).2 ha, Option.map_none]
  refine ⟨fun r ha hinst hz => does_step_of_word6 hw hz (hrole r ha) (hok r hinst), ?_⟩
  rintro (ha | ha | ⟨r, ha, hinst⟩ | hz)
  · exact stepIllegal_of_word6 hw (.inl (hno_role (.inl ha)))
  · exact stepIllegal_of_word6 hw (.inl (hno_role (.inr ha)))
  · exact stepIllegal_of_isIllegal hw (hrole r ha) (hillegal r hinst)
  · exact stepIllegal_of_word6 hw (.inr hz)

/-- The words of a bank helper: the operation on CIA2 with its unused bytes 0x00, ILLEGAL otherwise (R87). -/
theorem bank_word_stepOk_and_stepIllegal {i : Instr} {res : Byte} {written : List (Reg × Byte)}
    (hi : decodeOperands ⟨o.byte, a, b, c, d, e⟩ o = some i)
    (hok : s.params.inst = .cia2 → Performs i s res written) (hillegal : s.params.inst = .cia1 → IsIllegal i s) :
    (s.params.inst = .cia2 → AllZero (OpWord.unusedBytes ⟨o.byte, a, b, c, d, e⟩ o.format) → StepOk s res written) ∧
    (s.params.inst = .cia1 ∨ ¬ AllZero (OpWord.unusedBytes ⟨o.byte, a, b, c, d, e⟩ o.format) → StepIllegal s) := by
  refine ⟨fun hinst hz => does_step_of_word6 hw hz hi (hok hinst), ?_⟩
  rintro (hinst | hz)
  · exact stepIllegal_of_isIllegal hw hi (hillegal hinst)
  · exact stepIllegal_of_word6 hw (.inr hz)

end

/-! ## `PAS` and `PFROM` (R142, R143) -/

section
variable {s : State} {r : Role}

theorem exec_pas (h : r.inst = s.params.inst) :
    exec (.pas r) s = .next (s.respond .ok (s.read r.reg &&& s.params.mask r.type)) :=
  onlyOn_of_eq h _

theorem exec_pfrom (h : r.inst = s.params.inst) (v : Byte) : exec (.pfrom r v) s =
    .next ((s.write r.reg (v &&& s.params.mask r.type)).respond .ok (v &&& s.params.mask r.type)) :=
  onlyOn_of_eq h _

theorem performs_pas (h : r.inst = s.params.inst) :
    Performs (.pas r) s (s.read r.reg &&& s.params.mask r.type) [] :=
  performs_of_exec_eq_ok (exec_pas h)

/-- `PAS` answers the view where the port byte's view is known to be `b` (R142). -/
theorem performs_pas_of_view_eq {b : Byte} (h : r.inst = s.params.inst)
    (hb : s.read r.reg &&& s.params.mask r.type = b) : Performs (.pas r) s b [] :=
  hb ▸ performs_pas h

theorem performs_pfrom (h : r.inst = s.params.inst) (v : Byte) :
    Performs (.pfrom r v) s (v &&& s.params.mask r.type) [(r.reg, v &&& s.params.mask r.type)] :=
  performs_of_exec_eq_ok_write (exec_pfrom h v)

theorem isIllegal_pas (h : r.inst ≠ s.params.inst) : IsIllegal (.pas r) s :=
  isIllegal_of_not_wellFormed (mt of_decide_eq_true h)

theorem isIllegal_pfrom (h : r.inst ≠ s.params.inst) (v : Byte) : IsIllegal (.pfrom r v) s :=
  isIllegal_of_not_wellFormed (mt of_decide_eq_true h)

end

/-- Settles O11: `PAS` of a role of the block ends OK on the state it was given; its row is the role, and bytes `b` to
`e` unused. -/
theorem pasAnswersTheView : Obligations.PasAnswersTheView :=
  ⟨fun _ _ => performs_pas, fun _ _ => isIllegal_pas, fun _ _ _ _ _ _ hw =>
    role_word_stepOk_and_stepIllegal (o := .pas) hw rfl (fun _ => performs_pas) fun _ => isIllegal_pas⟩

/-- Settles O12: `PFROM` of a role of the block ends OK on the state with the role's port byte written; its row is the
role and the byte, and bytes `c` to `e` unused. -/
theorem pfromReplacesThePortByte : Obligations.PfromReplacesThePortByte :=
  ⟨fun _ _ v h => performs_pfrom h v, fun _ _ v h => isIllegal_pfrom h v, fun _ _ v _ _ _ hw =>
    role_word_stepOk_and_stepIllegal (o := .pfrom) hw rfl (fun _ h => performs_pfrom h v)
      fun _ h => isIllegal_pfrom h v⟩

/-! ## `VICGET` and `VICSET` (R144 to R146) -/

section
variable {s : State}

theorem exec_vicget (h : s.params.inst = .cia2) :
    exec .vicget s = .next (s.respond .ok (vicGet (s.read 0))) :=
  onlyOn_of_eq h.symm _

theorem exec_vicset (h : s.params.inst = .cia2) (n : Byte) :
    exec (.vicset n) s = .next ((s.write 0 (vicSet (s.read 0) n)).respond .ok (vicSet (s.read 0) n)) :=
  onlyOn_of_eq h.symm _

theorem performs_vicget (h : s.params.inst = .cia2) : Performs .vicget s (s.read 0 &&& 0x03) [] :=
  performs_of_exec_eq_ok (exec_vicget h)

theorem performs_vicset (h : s.params.inst = .cia2) (n : Byte) :
    Performs (.vicset n) s ((s.read 0 &&& 0xFC) ||| (n &&& 0x03)) [(0, (s.read 0 &&& 0xFC) ||| (n &&& 0x03))] :=
  performs_of_exec_eq_ok_write (exec_vicset h n)

theorem isIllegal_vicget (h : s.params.inst = .cia1) : IsIllegal .vicget s :=
  isIllegal_of_not_wellFormed (h ▸ Bool.false_ne_true)

theorem isIllegal_vicset (h : s.params.inst = .cia1) (n : Byte) : IsIllegal (.vicset n) s :=
  isIllegal_of_not_wellFormed (h ▸ Bool.false_ne_true)

end

/-- Settles O13: `VICGET` on CIA2 ends OK on the state it was given; its row leaves all five operand bytes unused. -/
theorem vicgetAnswersTheBankBits : Obligations.VicgetAnswersTheBankBits :=
  ⟨fun _ => performs_vicget, fun _ => isIllegal_vicget, fun _ _ _ _ _ _ hw =>
    bank_word_stepOk_and_stepIllegal (o := .vicget) hw rfl performs_vicget isIllegal_vicget⟩

/-- Settles O14: `VICSET` on CIA2 ends OK on the state with `x[0]` written; its row is the byte, any value, and bytes
`b` to `e` unused. -/
theorem vicsetReplacesTheBankBits : Obligations.VicsetReplacesTheBankBits :=
  ⟨fun _ n h => performs_vicset h n, fun _ n h => isIllegal_vicset h n, fun _ n _ _ _ _ hw =>
    bank_word_stepOk_and_stepIllegal (o := .vicset) hw rfl (performs_vicset · n) (isIllegal_vicset · n)⟩

/-- Bits 7:2 are not the bank's (R144). -/
theorem getLsbD_vicSet_of_two_le {k : Nat} (x n : Byte) (hlow : 2 ≤ k) (hhigh : k < 8) :
    (vicSet x n).getLsbD k = x.getLsbD k := by
  unfold vicSet
  interval_cases k <;> simp

/-- The bank is the byte modulo 4 (R144). -/
theorem toNat_vicGet (n : Byte) : (vicGet n).toNat = n.toNat % 4 :=
  Nat.and_two_pow_sub_one_eq_mod n.toNat 2

/-- Settles O15: `VICSET` stores `vic_set(x[0], n)`, whose bank is that of `n` and whose other bits are those of `x[0]`;
`PAS VIC_A` reads the same register as `VICGET`, under the mask `K[VIC_A]`. -/
theorem vicsetKeepsTheOtherBitsAndVicgetReadsItBack :
    Obligations.VicsetKeepsTheOtherBitsAndVicgetReadsItBack := by
  refine ⟨fun s n h => ?_, fun s h hmask => ⟨performs_vicget h, ?_⟩⟩
  · have hread : ((s.write 0 (vicSet (s.read 0) n)).respond .ok (vicSet (s.read 0) n)).read 0 =
        vicSet (s.read 0) n := State.read_write_same ..
    refine ⟨_, exec_vicset h n, hread, fun k hlow hhigh => ?_, _, _, exec_vicget h, rfl, ?_, fun _ => rfl⟩
    · rw [hread, getLsbD_vicSet_of_two_le _ _ hlow hhigh]
    · rw [hread, vicGet_vicSet, toNat_vicGet]
  · exact performs_pas_of_view_eq (r := .vicA) h.symm (congrArg (s.read 0 &&& ·) hmask)

/-! ## Two views of one port (R147) -/

/-- The other role of the same port of the same instantiation (R24 to R26, R141). -/
def otherRole : Role → Role
  | .kbdA => .joyA
  | .joyA => .kbdA
  | .kbdB => .joyB
  | .joyB => .kbdB
  | .serA => .vicA
  | .vicA => .serA
  | .usrB => .rs232B
  | .rs232B => .usrB

/-- Each port of a block has two roles (R141). -/
theorem eq_or_eq_otherRole {r r' : Role} (hinst : r'.inst = r.inst) (hport : r.port = r'.port) :
    r = r' ∨ r' = otherRole r := by
  cases r <;> cases r' <;> revert hinst hport <;> decide

/-- What the two roles of a port have in common under the default masks (R27; log 4). -/
theorem default_mask_and_mask_otherRole (r : Role) :
    (Params.default r.inst).mask r.type &&& (Params.default r.inst).mask (otherRole r).type =
      (if r = .serA ∨ r = .vicA then 0x00 else if r.inst = .cia1 then 0x1F else 0xDF) := by
  cases r <;> decide

/-- Settles O16: the first `PAS` leaves the port byte for the second, and the default masks are compared for each role
with the one other role of its port. -/
theorem viewsOfOnePortAreIndependent : Obligations.ViewsOfOnePortAreIndependent := by
  constructor
  · intro s r1 r2 h1 h2 hport
    have hreg : r1.reg = r2.reg := congrArg Port.reg hport
    refine ⟨_, _, _, _, exec_pas h1, exec_pas h2, rfl, rfl, fun k => BitVec.getLsbD_and, fun k => ?_, fun _ => rfl⟩
    rw [BitVec.getLsbD_and, State.read_respond, State.respond_params, hreg]
  · rintro inst r1 r2 rfl hinst hport hne
    obtain rfl : r2 = otherRole r1 := (eq_or_eq_otherRole hinst hport).resolve_left hne
    exact default_mask_and_mask_otherRole r1

/-! ## The round trip of a view (R148) -/

/-- A mask keeps a byte whole exactly when the byte has no bit outside it. -/
theorem and_eq_left_iff_and_not_eq_zero (x k : Byte) : x &&& k = x ↔ x &&& ~~~k = 0 := by
  constructor
  · intro h
    rw [← h, BitVec.and_assoc, BitVec.and_not_self]
    exact BitVec.and_zero
  · intro h
    calc x &&& k = (x &&& k) ||| (x &&& ~~~k) := by rw [h]; exact BitVec.or_zero.symm
      _ = x := by rw [← BitVec.and_or_distrib_left, BitVec.or_not_self, BitVec.and_allOnes]

/-- Settles O17: `PFROM` leaves `v & K[r]` in the port's register, and masking that again, in the `PAS` that follows or in
the `PFROM` of a view, changes nothing. -/
theorem viewRoundTripKeepsTheMaskOnly : Obligations.ViewRoundTripKeepsTheMaskOnly := by
  refine ⟨fun s r v h => ⟨_, exec_pfrom h v, performs_pas_of_view_eq h ?_⟩,
    fun s r h => ⟨_, _, _, exec_pas h, rfl, exec_pfrom h _, ?_⟩⟩
  · rw [State.read_respond, State.read_write_same]
    exact asRole_fromRole _ v
  · have hport : s.read r.reg &&& s.params.mask r.type &&& s.params.mask r.type =
        s.read r.reg &&& s.params.mask r.type := asRole_fromRole _ _
    rw [State.read_respond, State.read_write_same, hport]
    exact ⟨rfl, and_eq_left_iff_and_not_eq_zero _ _⟩

end Sys2Proof.Machine
end

section
/-! PROOFS. Direction presets (spec/43_direction_presets.md): `DPRESET` and `DDEFAULT` on both levels (R160, R161), and the
direction registers' lack of effect on every other operation (R163). -/

namespace Sys2Proof.Machine

/-! ## `DPRESET` (R160) -/

section
variable {s : State} {p : Preset}

theorem exec_dpreset (h : p.inst = s.params.inst) : exec (.dpreset p) s =
    ok (s.params.preset p).value (s.write (s.params.preset p).target.ddr (s.params.preset p).value) :=
  onlyOn_of_eq h _

theorem performs_dpreset (h : p.inst = s.params.inst) :
    Performs (.dpreset p) s (s.params.preset p).value
      [((s.params.preset p).target.ddr, (s.params.preset p).value)] :=
  performs_of_exec_eq_ok_write (exec_dpreset h)

theorem isIllegal_dpreset (h : p.inst ≠ s.params.inst) : IsIllegal (.dpreset p) s :=
  isIllegal_of_not_wellFormed (mt of_decide_eq_true h)

end

/-- A `DPRESET` word with the code of a preset in byte `a` is the operation on that preset (R83). -/
theorem decodeOperands_dpreset {f : OpWord} {p : Preset} (ha : f.a = p.code) :
    decodeOperands f .dpreset = some (.dpreset p) :=
  Option.map_eq_some_iff.2 ⟨p, ha ▸ presetOfByte_code p, rfl⟩

/-- Settles O18: `DPRESET` of a preset of the block ends OK on the state with the target's direction register written; its
row takes a preset code, at most 0x06, in byte `a` and leaves bytes `b` to `e` unused. -/
theorem dpresetLoadsThePreset : Obligations.DpresetLoadsThePreset := by
  refine ⟨fun _ _ => performs_dpreset, fun _ _ => isIllegal_dpreset, fun s a b c d e hw =>
    ⟨fun p ha hinst hz => ?_, ?_⟩⟩
  · exact does_step_of_word6 (o := .dpreset) hw hz (decodeOperands_dpreset ha) (performs_dpreset hinst)
  · rintro (ha | ⟨p, ha, hinst⟩ | hz)
    · exact stepIllegal_of_word6 (o := .dpreset) hw
        (.inl (Option.map_eq_none_iff.2 ((presetOfByte_eq_none a).2 ha)))
    · exact stepIllegal_of_isIllegal (o := .dpreset) hw (decodeOperands_dpreset ha) (isIllegal_dpreset hinst)
    · exact stepIllegal_of_word6 (o := .dpreset) hw (.inr hz)

/-! ## `DDEFAULT` (R161) -/

theorem ddrDefault_of_cia1 {p : Params} (h : p.inst = .cia1) :
    p.ddrDefault .A = p.ddrDefaults.cia1A ∧ p.ddrDefault .B = p.ddrDefaults.cia1B := by
  simp only [Params.ddrDefault, h, and_self]

theorem ddrDefault_of_cia2 {p : Params} (h : p.inst = .cia2) :
    p.ddrDefault .A = p.ddrDefaults.cia2A ∧ p.ddrDefault .B = p.ddrDefaults.cia2B := by
  simp only [Params.ddrDefault, h, and_self]

section
variable {s : State} {port : Port} {value : Byte} (h : s.params.ddrDefault port = value)
include h

/-- `DDEFAULT` where the port's default is known to be `value`. -/
theorem performs_ddefault : Performs (.ddefault port) s value [(port.ddr, value)] :=
  h ▸ performs_of_exec_eq_ok_write rfl

/-- A `DDEFAULT` word with the code of a port in byte `a` and its unused bytes 0x00 is the operation on that port. -/
theorem stepOk_of_ddefault_word {a b c d e : Byte} (hw : Presents s (word6 0x31 a b c d e)) (ha : a = port.code)
    (hz : AllZero [b, c, d, e]) : StepOk s value [(port.ddr, value)] :=
  does_step_of_word6 (o := .ddefault) hw hz
    (Option.map_eq_some_iff.2 ⟨port, ha ▸ portOfByte_code port, rfl⟩) (performs_ddefault h)

end

/-- Settles O19: `DDEFAULT` ends OK on the state with the port's direction register written; its row takes a port code, at
most 0x01, in byte `a` and leaves bytes `b` to `e` unused. -/
theorem ddefaultLoadsTheDefault : Obligations.DdefaultLoadsTheDefault := by
  refine ⟨fun s hinst => ?_, fun s hinst => ?_, fun s a b c d e hw =>
    ⟨fun hinst ha hz => ?_, fun hinst ha hz => ?_, fun hinst ha hz => ?_, fun hinst ha hz => ?_, fun h => ?_⟩⟩
  · exact (ddrDefault_of_cia1 hinst).imp performs_ddefault performs_ddefault
  · exact (ddrDefault_of_cia2 hinst).imp performs_ddefault performs_ddefault
  · exact stepOk_of_ddefault_word (ddrDefault_of_cia1 hinst).1 hw ha hz
  · exact stepOk_of_ddefault_word (ddrDefault_of_cia1 hinst).2 hw ha hz
  · exact stepOk_of_ddefault_word (ddrDefault_of_cia2 hinst).1 hw ha hz
  · exact stepOk_of_ddefault_word (ddrDefault_of_cia2 hinst).2 hw ha hz
  · exact stepIllegal_of_word6 (o := .ddefault) hw
      (h.imp_left fun ha => Option.map_eq_none_iff.2 ((portOfByte_eq_none a).2 ha))

/-! ## No other operation consults a direction register (R163) -/

/-- A direction register is no time field under any `TOD_ORDER` that R7 allows. -/
theorem ddr_not_mem_todCells {p : Params} (hwf : p.wf = true) (port : Port) : port.ddr ∉ todCells p := fun hmem => by
  have hrange : port.ddr ∈ ([8, 9, 10, 11] : List Reg) := (todOrder_of_wf hwf).2 _ hmem
  cases port <;> revert hrange <;> decide

/-- Every reading operation but `RD` has its own kind of register: a port register or a time field. -/
theorem eq_rd_of_ddr_mem_cellsRead {p : Params} (hwf : p.wf = true) {i : Instr} {port : Port}
    (hi : port.ddr ∈ cellsRead p i) : i = .rd port.ddr := by
  have hport : ∀ q : Port, port.ddr ∉ [q.reg] := fun q => mt List.mem_singleton.1 (ddr_ne_reg port q)
  have htod : port.ddr ∉ todCells p := ddr_not_mem_todCells hwf port
  cases i with
  | rd a => rw [List.mem_singleton.1 hi]
  | pas r => exact absurd hi (hport r.port)
  | vicget | vicset => exact absurd hi (hport .A)
  | tval => exact absurd hi htod
  | tispm | tsetpm | thour => exact absurd (List.mem_singleton.1 hi ▸ List.mem_cons_self) htod
  | wr | ftrunc | fexact | funion | finter | fcompl | fcont | pfrom | dpreset | ddefault | tset =>
    exact absurd hi List.not_mem_nil

/-- Settles O20: no cell that the operation reads is a direction register, so both states give it the same bytes; a register
it leaves alone is the same in both because it was before. -/
theorem directionRegistersInfluenceNothingElse : Obligations.DirectionRegistersInfluenceNothingElse := by
  intro i s t s' hwf hrd2 hrd3 hp hsame hx
  have hcells : ∀ r ∈ cellsRead s.params i, t.read r = s.read r := fun r hr => by
    refine hsame r ?_ ?_
    · rintro rfl
      exact hrd2 (eq_rd_of_ddr_mem_cellsRead (port := .A) hwf hr)
    · rintro rfl
      exact hrd3 (eq_rd_of_ddr_mem_cellsRead (port := .B) hwf hr)
  obtain ⟨t', ht, hresp, hregs⟩ := exec_sameEffect i hp hcells s' hx
  refine ⟨t', ht, hresp, fun r h2 h3 => (hregs r).elim id ?_⟩
  rintro ⟨htread, hsread⟩
  rw [htread, hsread, hsame r h2 h3]

end Sys2Proof.Machine
end

section
/-! PROOFS. Time of day (spec/44_time_of_day.md): the hours byte and its flag, the stored fields, the five operations on
both levels (R171 to R175), the queries after a write (R177, R178), the settings of `P_HOUR_BIT7` (R172), and the validity of
the stored time along steps (R178, R229). -/

namespace Sys2Proof.Machine

/-! ## The hours byte: the hour in bits 6:0, the flag in bit 7 (R36) -/

theorem getLsbD_hourBits_of_lt (h : Byte) {k : Nat} (hk : k < 7) : (hourBits h).getLsbD k = h.getLsbD k := by
  unfold hourBits
  interval_cases k <;> simp

@[simp] theorem isPm_hourBits (h : Byte) : isPm (hourBits h) = false := by simp [isPm, hourBits]

/-- The hour of an hours byte is its bits 6:0. -/
theorem hourBits_eq_iff {x y : Byte} : hourBits x = hourBits y ↔ ∀ k, k < 7 → x.getLsbD k = y.getLsbD k := by
  refine ⟨fun h k hk => ?_, fun h => BitVec.eq_of_getLsbD_eq fun k hk => ?_⟩
  · rw [← getLsbD_hourBits_of_lt x hk, h, getLsbD_hourBits_of_lt y hk]
  · rcases Nat.lt_succ_iff_lt_or_eq.1 hk with hlow | rfl
    · rw [getLsbD_hourBits_of_lt x hlow, getLsbD_hourBits_of_lt y hlow, h k hlow]
    · exact (isPm_hourBits x).trans (isPm_hourBits y).symm

/-- An AM hours byte is its hour. -/
theorem hourBits_of_am {h : Byte} (ham : isPm h = false) : hourBits h = h := by
  revert h
  decide

theorem isPm_or (x y : Byte) : isPm (x ||| y) = (isPm x || isPm y) := BitVec.getLsbD_or

theorem hourBits_or (x y : Byte) : hourBits (x ||| y) = hourBits x ||| hourBits y :=
  BitVec.and_or_distrib_right

@[simp] theorem isPm_pmBit (pm : Bool) : isPm (pmBit pm) = pm := by cases pm <;> rfl

@[simp] theorem hourBits_pmBit (pm : Bool) : hourBits (pmBit pm) = 0 := by cases pm <;> rfl

@[simp] theorem hourBits_hourBits (h : Byte) : hourBits (hourBits h) = hourBits h := by
  simp [hourBits, BitVec.and_assoc]

/-- Whatever `P_HOUR_BIT7` is, `TSET` stores the hour of its operand (R172). -/
theorem hourBits_tsetHours (rule : HourBit7) (h : Byte) (pm : Bool) :
    hourBits (tsetHours rule h pm) = hourBits h := by
  cases rule <;> simp [tsetHours, hourBits_or, hourOperand]

/-- The flag that `TSET` stores: `pm`, or, under `P_HOUR_BIT7 = or`, `pm` or the operand's (R172). -/
theorem isPm_tsetHours {rule : HourBit7} {h : Byte} {pm : Bool} (hreject : rule = .reject → isPm h = false) :
    isPm (tsetHours rule h pm) = true ↔ pm = true ∨ (rule = .or ∧ isPm h = true) := by
  cases rule with
  | mask | or => simp [tsetHours, isPm_or, hourOperand, or_comm]
  | reject => simp [tsetHours, isPm_or, hourOperand, hreject rfl]

theorem storedHours_tsetHours {p : Params} {h m sec t : Byte} {pm : Bool} (hv : TsetOperandsValid p h m sec t) :
    StoredHours p h pm (tsetHours p.hourBit7 h pm) := by
  obtain ⟨hreject, -⟩ := hv
  exact ⟨hourBits_eq_iff.1 (hourBits_tsetHours _ h pm),
    isPm_tsetHours fun hrule => (isPm_eq_false_iff h).2 (hreject hrule)⟩

/-- Two hours bytes with the same hour are valid together (R35). -/
theorem validHour_congr {x y : Byte} (h : hourBits x = hourBits y) : ValidHour x ↔ ValidHour y := by
  rw [← hourOk_iff, ← hourOk_iff, ← hourOk_hourBits x, h, hourOk_hourBits]

/-! ## The stored fields after a write (R34) -/

/-- Under R7 the four fields stand in four different registers. -/
theorem todOrder_ne_of_wf {p : Params} (hwf : p.wf = true) :
    (p.todOrder.hours ≠ p.todOrder.minutes ∧ p.todOrder.hours ≠ p.todOrder.seconds ∧
      p.todOrder.hours ≠ p.todOrder.tenths) ∧
    (p.todOrder.minutes ≠ p.todOrder.seconds ∧ p.todOrder.minutes ≠ p.todOrder.tenths) ∧
    p.todOrder.seconds ≠ p.todOrder.tenths := by
  simpa [todCells] using (todOrder_of_wf hwf).1

@[simp] theorem State.hours_writeHours (s : State) (h : Byte) : (s.writeHours h).hours = h :=
  State.read_write_same ..

section
variable {s : State} (hwf : s.params.wf = true)
include hwf

/-- Each field holds the byte that was written to it. -/
theorem State.fields_writeTime (h m sec t : Byte) :
    (s.writeTime h m sec t).hours = h ∧ (s.writeTime h m sec t).minutes = m ∧
      (s.writeTime h m sec t).seconds = sec ∧ (s.writeTime h m sec t).tenths = t := by
  obtain ⟨⟨hhm, hhs, hht⟩, ⟨hms, hmt⟩, hst⟩ := todOrder_ne_of_wf hwf
  simp [State.hours, State.minutes, State.seconds, State.tenths, State.read_writeTime, hhm.symm, hhs.symm,
    hht.symm, hms.symm, hmt.symm, hst.symm]

/-- Writing the hours byte leaves the other three fields alone. -/
theorem State.other_fields_writeHours (h : Byte) :
    (s.writeHours h).minutes = s.minutes ∧ (s.writeHours h).seconds = s.seconds ∧
      (s.writeHours h).tenths = s.tenths := by
  obtain ⟨⟨hhm, hhs, hht⟩, -, -⟩ := todOrder_ne_of_wf hwf
  exact ⟨State.read_write_of_ne _ _ _ _ hhm, State.read_write_of_ne _ _ _ _ hhs, State.read_write_of_ne _ _ _ _ hht⟩

/-- An operation that ends OK on the state with the four fields written writes exactly those four registers. -/
theorem performs_of_exec_eq_ok_writeTime {i : Instr} {res h m sec t : Byte}
    (hx : exec i s = ok res (s.writeTime h m sec t)) :
    Performs i s res [(s.params.todOrder.hours, h), (s.params.todOrder.minutes, m),
      (s.params.todOrder.seconds, sec), (s.params.todOrder.tenths, t)] := by
  obtain ⟨hhours, hminutes, hseconds, htenths⟩ := State.fields_writeTime hwf h m sec t
  refine ⟨_, hx, rfl, ?_, fun r hr => ?_, rfl, rfl, rfl⟩
  · simp only [List.forall_mem_cons]
    exact ⟨hhours, hminutes, hseconds, htenths, List.forall_mem_nil _⟩
  · simp only [List.map_cons, List.map_nil, List.mem_cons, List.not_mem_nil, or_false, not_or] at hr
    obtain ⟨hh, hm, hs, ht⟩ := hr
    simp [State.read_writeTime, Ne.symm hh, Ne.symm hm, Ne.symm hs, Ne.symm ht]

end

/-! ## What each operation does (R171 to R175) -/

theorem performs_tval_of_valid {s : State} (h : StoredTimeValid s) : Performs .tval s 0x01 [] := by
  have hanswer := performs_tval s
  rwa [(timeOk_iff s).2 h] at hanswer

theorem performs_tval_of_not_valid {s : State} (h : ¬ StoredTimeValid s) : Performs .tval s 0x00 [] := by
  have hanswer := performs_tval s
  rwa [Bool.eq_false_iff.2 (mt (timeOk_iff s).1 h)] at hanswer

theorem performs_tispm (s : State) : Performs .tispm s (boolResult (isPm s.hours)) [] :=
  performs_of_exec_eq_ok rfl

theorem performs_thour (s : State) : Performs .thour s (hourBits s.hours) [] :=
  performs_of_exec_eq_ok rfl

theorem exec_tsetpm (pm : Bool) (s : State) :
    exec (.tsetpm pm) s = .next ((s.writeHours (withPm s.hours pm)).respond .ok 0x00) := rfl

theorem performs_tsetpm (pm : Bool) (s : State) :
    Performs (.tsetpm pm) s 0x00 [(s.params.todOrder.hours, withPm s.hours pm)] :=
  performs_of_exec_eq_ok_write (exec_tsetpm pm s)

section
variable {s : State} {h m sec t : Byte}

theorem exec_tset_of_valid (hv : TsetOperandsValid s.params h m sec t) (pm : Bool) : exec (.tset h m sec t pm) s =
    .next ((s.writeTime (tsetHours s.params.hourBit7 h pm) m sec t).respond .ok 0x01) :=
  if_pos ((tsetAccepts_iff ..).2 hv)

theorem exec_tset_of_not_valid (hv : ¬ TsetOperandsValid s.params h m sec t) (pm : Bool) :
    exec (.tset h m sec t pm) s = .next (s.respond .fail 0x00) :=
  execTset_of_not_valid hv

theorem performs_tset (hwf : s.params.wf = true) (hv : TsetOperandsValid s.params h m sec t) (pm : Bool) :
    Performs (.tset h m sec t pm) s 0x01
      [(s.params.todOrder.hours, tsetHours s.params.hourBit7 h pm), (s.params.todOrder.minutes, m),
       (s.params.todOrder.seconds, sec), (s.params.todOrder.tenths, t)] :=
  performs_of_exec_eq_ok_writeTime hwf (exec_tset_of_valid hv pm)

theorem fails_tset (hv : ¬ TsetOperandsValid s.params h m sec t) (pm : Bool) : Fails (.tset h m sec t pm) s :=
  fails_of_exec_eq_raiseFail (cause := .invalidBcd) (exec_tset_of_not_valid hv pm)

end

/-! ## The words of the family (R82, R83) -/

/-- The words of an operation that is performed whatever its operands: the operation with the unused bytes 0x00, ILLEGAL
otherwise. -/
theorem total_word_stepOk_and_stepIllegal {s : State} {o : Opcode} {a b c d e : Byte} {i : Instr} {res : Byte}
    {written : List (Reg × Byte)} (hw : Presents s (word6 o.byte a b c d e))
    (hi : decodeOperands ⟨o.byte, a, b, c, d, e⟩ o = some i) (hx : Performs i s res written) :
    (AllZero (OpWord.unusedBytes ⟨o.byte, a, b, c, d, e⟩ o.format) → StepOk s res written) ∧
    (¬ AllZero (OpWord.unusedBytes ⟨o.byte, a, b, c, d, e⟩ o.format) → StepIllegal s) :=
  ⟨fun hz => does_step_of_word6 hw hz hi hx, fun hz => stepIllegal_of_word6 hw (.inr hz)⟩

theorem decodeOperands_tsetpm {f : OpWord} {pm : Bool} (ha : f.a = boolCode pm) :
    decodeOperands f .tsetpm = some (.tsetpm pm) :=
  Option.map_eq_some_iff.2 ⟨pm, ha ▸ boolOfByte_code pm, rfl⟩

theorem decodeOperands_tset {f : OpWord} {pm : Bool} (he : f.e = boolCode pm) :
    decodeOperands f .tset = some (.tset f.a f.b f.c f.d pm) :=
  Option.map_eq_some_iff.2 ⟨pm, he ▸ boolOfByte_code pm, rfl⟩

/-- A byte up to 0x01 is the code of a `bool` (R83). -/
theorem exists_boolCode_of_le {b : Byte} (h : b.toNat ≤ 1) : ∃ pm, b = boolCode pm := by
  obtain ⟨pm, hpm⟩ := Option.ne_none_iff_exists'.1 (mt (boolOfByte_eq_none b).1 h.not_gt)
  exact ⟨pm, (code_of_findCode hpm).symm⟩

/-- A `TSET` word uses all its bytes, so with a `bool` in byte `e` its step does what the operation does (R82). -/
theorem does_step_of_tset_word {s : State} {h m sec t e : Byte} {pm : Bool} {st : Status} {res : Byte}
    {written : List (Reg × Byte)} (hw : Presents s (word6 0x41 h m sec t e)) (he : e = boolCode pm)
    (hx : Does (exec (.tset h m sec t pm) s) s st res written s.pc) : Does (step s) s st res written (s.pc + 1) :=
  does_step_of_word6 (o := .tset) hw (List.forall_mem_nil _) (decodeOperands_tset he) hx

/-- Settles O21: `TVAL` ends OK on the state it was given with the answer of `tod_ok`, whose second form in R35 is
`StoredTimeValid`; its row leaves all five operand bytes unused. -/
theorem tvalReportsValidity : Obligations.TvalReportsValidity := by
  refine ⟨fun _ => performs_tval_of_valid, fun _ => performs_tval_of_not_valid, fun s a b c d e hw =>
    ⟨fun hz hv => ?_, fun hz hv => ?_, fun hz => ?_⟩⟩
  · exact does_step_of_word6 (o := .tval) hw hz rfl (performs_tval_of_valid hv)
  · exact does_step_of_word6 (o := .tval) hw hz rfl (performs_tval_of_not_valid hv)
  · exact stepIllegal_of_word6 (o := .tval) hw (.inr hz)

/-- Settles O22: the operands that `TSET` tests for are the valid ones, and then it ends OK on the state with the four
fields written; its row takes a `bool` in byte `e` and leaves no byte unused. -/
theorem tsetWritesAllFourFieldsOrNone : Obligations.TsetWritesAllFourFieldsOrNone := by
  refine ⟨fun s h m sec t pm hwf hv => ⟨_, storedHours_tsetHours hv, performs_tset hwf hv pm⟩,
    fun s h m sec t pm hv => fails_tset hv pm, fun s h m sec t e hw => ⟨fun pm he hwf hv => ?_, fun he hv => ?_,
      fun he => ?_⟩⟩
  · exact ⟨_, storedHours_tsetHours hv, does_step_of_tset_word hw he (performs_tset hwf hv pm)⟩
  · obtain ⟨pm, hpm⟩ := exists_boolCode_of_le he
    exact does_step_of_tset_word hw hpm (fails_tset hv pm)
  · exact stepIllegal_of_word6 (o := .tset) hw (.inl (Option.map_eq_none_iff.2 ((boolOfByte_eq_none e).2 he)))

/-- Settles O23: `TISPM` ends OK on the state it was given; its row leaves all five operand bytes unused. -/
theorem tispmAnswersBitSeven : Obligations.TispmAnswersBitSeven :=
  ⟨performs_tispm, fun s _ _ _ _ _ hw => total_word_stepOk_and_stepIllegal (o := .tispm) hw rfl (performs_tispm s)⟩

/-- Settles O24: `TSETPM` ends OK on the state with the hours byte written; its row takes a `bool` in byte `a` and
leaves bytes `b` to `e` unused. -/
theorem tsetpmSetsBitSeven : Obligations.TsetpmSetsBitSeven := by
  refine ⟨fun s pm => performs_tsetpm pm s, fun s a b c d e hw => ⟨fun pm ha hz => ?_, fun h => ?_⟩⟩
  · exact does_step_of_word6 (o := .tsetpm) hw hz (decodeOperands_tsetpm ha) (performs_tsetpm pm s)
  · exact stepIllegal_of_word6 (o := .tsetpm) hw
      (h.imp_left fun ha => Option.map_eq_none_iff.2 ((boolOfByte_eq_none a).2 ha))

/-- Settles O25: `THOUR` ends OK on the state it was given; its row leaves all five operand bytes unused. -/
theorem thourAnswersTheHourWithoutTheFlag : Obligations.ThourAnswersTheHourWithoutTheFlag :=
  ⟨performs_thour, fun s _ _ _ _ _ hw => total_word_stepOk_and_stepIllegal (o := .thour) hw rfl (performs_thour s)⟩

/-! ## The queries after a write (R177, R178) -/

/-- Where the hours byte is `h` with the flag `pm`, `TISPM` answers the flag and `THOUR` the hour of `h`. -/
theorem performs_tispm_and_thour_of_hours_eq_withPm {u : State} {h : Byte} {pm : Bool} (hu : u.hours = withPm h pm) :
    Performs .tispm u (boolResult pm) [] ∧ Performs .thour u (hourBits h) [] := by
  constructor
  · rw [← isPm_withPm h pm, ← hu]
    exact performs_tispm u
  · rw [← hourBits_withPm h pm, ← hu]
    exact performs_thour u

/-- A `RD` of a register that is known to hold `v` answers `v` (R110). -/
theorem performs_rd_of_read_eq {u : State} {a : Reg} {v : Byte} (h : u.read a = v) : Performs (.rd a) u v [] :=
  h ▸ performs_rd a u

/-- The time that a successful `TSET` leaves is valid, under each `P_HOUR_BIT7` (R178). -/
theorem storedTimeValid_writeTime {s : State} (hwf : s.params.wf = true) {h m sec t : Byte}
    (hv : TsetOperandsValid s.params h m sec t) (pm : Bool) :
    StoredTimeValid (s.writeTime (tsetHours s.params.hourBit7 h pm) m sec t) := by
  obtain ⟨-, hhour, hrest⟩ := hv
  obtain ⟨hhours, hminutes, hseconds, htenths⟩ :=
    State.fields_writeTime hwf (tsetHours s.params.hourBit7 h pm) m sec t
  rw [← timeOk_iff, State.timeOk, hhours, hminutes, hseconds, htenths, todOk_iff]
  exact ⟨(validHour_congr (hourBits_tsetHours _ h pm)).2 hhour, hrest⟩

/-- Setting the flag leaves the validity as it is (R178). -/
theorem storedTimeValid_writeHours_withPm_iff {s : State} (hwf : s.params.wf = true) (pm : Bool) :
    StoredTimeValid (s.writeHours (withPm s.hours pm)) ↔ StoredTimeValid s := by
  obtain ⟨hminutes, hseconds, htenths⟩ := State.other_fields_writeHours hwf (withPm s.hours pm)
  rw [← timeOk_iff, State.timeOk, State.hours_writeHours, hminutes, hseconds, htenths, todOk_iff]
  exact and_congr_left' (validHour_congr (hourBits_withPm s.hours pm))

/-- Settles O26: each field holds the byte that was written; under `mask` the stored hours byte is the operand's hour
with the flag `pm`, as after `TSETPM`. -/
theorem queriesAnswerWhatTsetSet : Obligations.QueriesAnswerWhatTsetSet := by
  refine ⟨fun s h m sec t pm hwf hmask hv => ⟨_, exec_tset_of_valid hv pm, ?_⟩,
    fun s pm hwf => ⟨_, exec_tsetpm pm s, ?_⟩⟩
  · obtain ⟨hhours, hminutes, hseconds, htenths⟩ :=
      State.fields_writeTime hwf (tsetHours s.params.hourBit7 h pm) m sec t
    have hflag : tsetHours s.params.hourBit7 h pm = withPm h pm := by rw [hmask]; rfl
    obtain ⟨htispm, hthour⟩ := performs_tispm_and_thour_of_hours_eq_withPm
      (u := (s.writeTime (tsetHours s.params.hourBit7 h pm) m sec t).respond .ok 0x01) (hhours.trans hflag)
    exact ⟨hthour, htispm, performs_tval_of_valid (storedTimeValid_writeTime hwf hv pm),
      performs_rd_of_read_eq hminutes, performs_rd_of_read_eq hseconds, performs_rd_of_read_eq htenths⟩
  · obtain ⟨htispm, hthour⟩ := performs_tispm_and_thour_of_hours_eq_withPm
      (u := (s.writeHours (withPm s.hours pm)).respond .ok 0x00) (State.hours_writeHours s _)
    exact ⟨htispm, hthour, storedTimeValid_writeHours_withPm_iff hwf pm⟩

/-- A later `TSETPM` takes the place of an earlier one, and neither reaches another register (R174). -/
theorem read_of_tsetpm_tsetpm {s t u : State} {pm pm' : Bool} (ht : exec (.tsetpm pm) s = .next t)
    (hu : exec (.tsetpm pm') t = .next u) : u.read s.params.todOrder.hours = withPm s.hours pm' ∧
      ∀ r, r ≠ s.params.todOrder.hours → u.read r = s.read r := by
  cases (exec_tsetpm pm s).symm.trans ht
  cases (exec_tsetpm pm' _).symm.trans hu
  have hflag : withPm (withPm s.hours pm) pm' = withPm s.hours pm' := by
    rw [withPm, hourBits_withPm, withPm]
  refine ⟨?_, fun r hr => ?_⟩
  · calc _ = withPm (s.writeHours (withPm s.hours pm)).hours pm' := State.read_write_same ..
      _ = withPm s.hours pm' := by rw [State.hours_writeHours, hflag]
  · exact (State.read_write_of_ne _ _ _ _ hr.symm).trans (State.read_write_of_ne _ _ _ _ hr.symm)

/-- Clearing the flag keeps the byte exactly when it was clear (R177 (c)). -/
theorem withPm_false_eq_iff (h : Byte) : withPm h false = h ↔ isPm h = false := by
  constructor
  · intro heq
    rw [← heq, isPm_withPm]
  · intro ham
    rw [withPm, hourBits_of_am ham]
    exact BitVec.or_zero

/-- Settles O27: the two writes leave the hours byte with its flag clear and every other register as it was. -/
theorem pmOnThenOffRestoresAnAmHour : Obligations.PmOnThenOffRestoresAnAmHour := by
  intro s
  have ht := exec_tsetpm true s
  have hu := exec_tsetpm false ((s.writeHours (withPm s.hours true)).respond .ok 0x00)
  obtain ⟨hhours, hother⟩ := read_of_tsetpm_tsetpm ht hu
  refine ⟨_, _, ht, hu, ?_, ?_, hother⟩
  · rw [hhours]
    exact hourBits_eq_iff.1 (hourBits_withPm s.hours false)
  · rw [hhours]
    exact withPm_false_eq_iff s.hours

/-! ## The settings of `P_HOUR_BIT7` (R172) -/

section
variable {h : Byte} (ham : isPm h = false)
include ham

/-- An AM hours operand is accepted for its time alone. -/
theorem tsetOperandsValid_iff_of_am {p : Params} {m sec t : Byte} :
    TsetOperandsValid p h m sec t ↔ ValidTime p.tenthsRule h m sec t :=
  and_iff_right fun _ => (isPm_eq_false_iff h).1 ham

/-- An AM hours operand is stored with the flag `pm`. -/
theorem tsetHours_of_am (rule : HourBit7) (pm : Bool) : tsetHours rule h pm = h ||| pmBit pm := by
  cases rule with
  | mask => rw [tsetHours, hourOperand, hourBits_of_am ham]
  | reject | or => rfl

/-- With an AM hours operand `TSET` does the same under each setting. -/
theorem exec_tset_of_am (s : State) (m sec t : Byte) (pm : Bool) : exec (.tset h m sec t pm) s =
    if ValidTime s.params.tenthsRule h m sec t then .next ((s.writeTime (h ||| pmBit pm) m sec t).respond .ok 0x01)
    else .next (s.respond .fail 0x00) := by
  split
  · next hv => rw [exec_tset_of_valid ((tsetOperandsValid_iff_of_am ham).2 hv), tsetHours_of_am ham]
  · next hv => exact exec_tset_of_not_valid (mt (tsetOperandsValid_iff_of_am ham).1 hv) pm

end

/-- Settles O28: with bit 7 clear neither the test nor the stored hours byte depends on the setting. -/
theorem hourBit7SettingsAgreeOnAClearBit : Obligations.HourBit7SettingsAgreeOnAClearBit := by
  intro s s' setting h m sec t pm (ham : isPm h = false) hx
  rw [exec_tset_of_am ham] at hx
  by_cases hv : ValidTime s.params.tenthsRule h m sec t
  · cases (if_pos hv).symm.trans hx
    exact ⟨_, (exec_tset_of_am ham ..).trans (if_pos hv), rfl, rfl⟩
  · cases (if_neg hv).symm.trans hx
    exact ⟨_, (exec_tset_of_am ham ..).trans (if_neg hv), rfl, rfl⟩

/-! ## The validity of the stored time along steps (R178, R229) -/

/-- A port register is no time field under any `TOD_ORDER` that R7 allows. -/
theorem port_reg_not_mem_todCells {p : Params} (hwf : p.wf = true) (port : Port) : port.reg ∉ todCells p := by
  intro hmem
  have hrange : port.reg ∈ ([8, 9, 10, 11] : List Reg) := (todOrder_of_wf hwf).2 _ hmem
  cases port <;> revert hrange <;> decide

/-- A state with the same time fields holds a valid time too. -/
theorem storedTimeValid_of_reads_kept {s t : State} (hs : StoredTimeValid s) (hp : t.params = s.params)
    (hkept : ∀ r ∈ todCells s.params, t.read r = s.read r) : StoredTimeValid t := by
  rwa [← timeOk_iff, timeOk_congr hp hkept, timeOk_iff]

/-- The operations that can write a time field are `WR`, `TSET` and `TSETPM`; the first is excluded, and the other two
leave a valid time. -/
theorem storedTimeValid_of_exec {s u : State} {i : Instr} (hwf : s.params.wf = true) (hs : StoredTimeValid s)
    (hx : exec i s = .next u) (hraw : ∀ a v, i = .wr a v → a ∉ todCells s.params) : StoredTimeValid u := by
  obtain ⟨hparams, -, -, -⟩ := exec_keeps_config_and_answers_wf hx
  have hframe : (∀ r ∈ todCells s.params, r ∉ cellsWritten s.params i) → StoredTimeValid u := fun hdisjoint =>
    storedTimeValid_of_reads_kept hs hparams fun r hr => exec_frame hx (hdisjoint r hr)
  have hone : ∀ a, cellsWritten s.params i = [a] → a ∉ todCells s.params → StoredTimeValid u := fun a ha hnot =>
    hframe fun r hr hmem => hnot (List.mem_singleton.1 (ha ▸ hmem) ▸ hr)
  cases i with
  | wr a v => exact hone a rfl (hraw a v rfl)
  | pfrom r v => exact hone _ rfl (port_reg_not_mem_todCells hwf r.port)
  | vicset n => exact hone _ rfl (port_reg_not_mem_todCells hwf .A)
  | dpreset | ddefault => exact hone _ rfl (ddr_not_mem_todCells hwf _)
  | tset h m sec t pm =>
    by_cases hv : TsetOperandsValid s.params h m sec t
    · cases (exec_tset_of_valid hv pm).symm.trans hx
      exact storedTimeValid_writeTime hwf hv pm
    · cases (exec_tset_of_not_valid hv pm).symm.trans hx
      exact hs
  | tsetpm pm =>
    cases (exec_tsetpm pm s).symm.trans hx
    exact (storedTimeValid_writeHours_withPm_iff hwf pm).2 hs
  | rd | ftrunc | fexact | funion | finter | fcompl | fcont | pas | vicget | tval | tispm | thour =>
    exact hframe fun _ _ => List.not_mem_nil

/-- Settles O29: a step that is no reset is an operation, which keeps the time valid, or answers ILLEGAL and changes no
register. -/
theorem onlyRawWritesAndResetCanSpoilAValidTime : Obligations.OnlyRawWritesAndResetCanSpoilAValidTime := by
  intro s t hwf hs hstep hrst hraw
  rcases step_cases hstep with ⟨hf, -⟩ | ⟨w, i, u, hw, hd, hx, rfl⟩ | ⟨w, why, -, -, rfl⟩
  · exact absurd hf hrst
  · have hu : StoredTimeValid u := storedTimeValid_of_exec hwf hs hx fun a v hi => hraw w a v hw (hi ▸ hd)
    exact hu
  · exact hs

end Sys2Proof.Machine
end

section
/-! PROOFS. The three outcomes (spec/60_exceptions.md): every word ends in one of them and only OK changes registers (R200,
R204), what FAIL comes from (R201), and ILLEGAL for exactly the reserved words of the opcode table (R85, R90, R202). -/

namespace Sys2Proof.Machine

/-! ## The status of an answer (R200) -/

/-- The answer is a next state whose response has the status `st`. -/
def Answers (x : Result) (st : Status) : Prop := ∃ t res, x = .next t ∧ t.resp = some ⟨st, res⟩

theorem Does.answers {x : Result} {s : State} {st : Status} {res : Byte} {written : List (Reg × Byte)} {pc' : Nat}
    (h : Does x s st res written pc') : Answers x st := by
  obtain ⟨t, hx, hresp, -⟩ := h
  exact ⟨t, res, hx, hresp⟩

/-- An answer has one status. -/
theorem Answers.unique {x : Result} {st st' : Status} (h : Answers x st) (h' : Answers x st') : st = st' := by
  obtain ⟨t, res, rfl, hresp⟩ := h
  obtain ⟨t', res', ht, hresp'⟩ := h'
  cases ht
  cases hresp.symm.trans hresp'
  rfl

/-- Advancing the index leaves the response as it is (R44). -/
theorem answers_advanced {x : Result} {st : Status} : Answers (advanced x) st ↔ Answers x st := by
  constructor
  · rintro ⟨t, res, ht, hresp⟩
    obtain ⟨u, hx, rfl⟩ := advanced_eq_next.1 ht
    exact ⟨u, res, hx, hresp⟩
  · rintro ⟨u, res, rfl, hresp⟩
    exact ⟨u.advance, res, rfl, hresp⟩

/-- Settles O30: a word that does not decode is answered ILLEGAL on the state as it was, and an operation changes nothing
unless it ends OK. -/
theorem everyWordEndsInOneOfThreeOutcomes : Obligations.EveryWordEndsInOneOfThreeOutcomes := by
  intro s w hw
  cases hd : decode w with
  | error why =>
    exact ⟨_, .illegal, 0x00, step_of_error hw hd, rfl, rfl, fun _ => ⟨rfl, fun _ => rfl⟩, rfl, rfl, rfl⟩
  | ok i =>
    obtain ⟨u, st, res, hx, hparams, hprog, hpc, hkept⟩ := exec_next i s
    refine ⟨_, st, res, step_of_exec hw hd hx, rfl, by cases st <;> rfl, fun hst => ?_, hparams, hprog,
      congrArg (· + 1) hpc⟩
    obtain ⟨hres, rfl⟩ := hkept hst
    exact ⟨hres, fun _ => rfl⟩

/-! ## Which operation ends in which outcome (R201, R202) -/

/-- The operations that fail: a `TSET` whose operands are no valid time, a `FEXACT` with a bit outside `K[T]` (R201). -/
def FailsUnder (p : Params) (i : Instr) : Prop :=
  (∃ h m sec t pm, i = .tset h m sec t pm ∧ ¬ TsetOperandsValid p h m sec t) ∨
  (∃ T v, i = .fexact T v ∧ v &&& ~~~(p.mask T) ≠ 0)

section
variable {i : Instr} {s : State}

theorem answers_fail_exec (h : FailsUnder s.params i) : Answers (exec i s) .fail := by
  obtain ⟨h, m, sec, t, pm, rfl, hv⟩ | ⟨T, v, rfl, hv⟩ := h
  · exact (fails_tset hv pm).answers
  · exact (fails_fexact s T v hv).answers

theorem answers_illegal_exec (h : i.wellFormed s.params.inst ≠ true) : Answers (exec i s) .illegal :=
  (isIllegal_of_not_wellFormed h).answers

/-- An operation that is legal on the block and has no cause to fail ends OK. -/
theorem answers_ok_exec (hwf : i.wellFormed s.params.inst = true) (hfail : ¬ FailsUnder s.params i) :
    Answers (exec i s) .ok := by
  cases i with
  | rd | wr | ftrunc | funion | finter | fcompl | fcont | ddefault | tval | tispm | tsetpm | thour =>
    exact ⟨_, _, rfl, rfl⟩
  | fexact T v =>
    have hv : v &&& ~~~(s.params.mask T) = 0 := of_not_not fun hv => hfail (.inr ⟨T, v, rfl, hv⟩)
    exact (performs_fexact s T v hv).answers
  | tset h m sec t pm =>
    have hv : TsetOperandsValid s.params h m sec t := of_not_not fun hv => hfail (.inl ⟨h, m, sec, t, pm, rfl, hv⟩)
    exact ⟨_, _, exec_tset_of_valid hv pm, rfl⟩
  | pas r => exact (performs_pas (of_decide_eq_true hwf)).answers
  | pfrom r v => exact (performs_pfrom (of_decide_eq_true hwf) v).answers
  | vicget => exact (performs_vicget (of_decide_eq_true hwf)).answers
  | vicset n => exact (performs_vicset (of_decide_eq_true hwf) n).answers
  | dpreset p => exact (performs_dpreset (of_decide_eq_true hwf)).answers

theorem answers_fail_exec_iff : Answers (exec i s) .fail ↔ FailsUnder s.params i := by
  refine ⟨fun hx => ?_, answers_fail_exec⟩
  by_contra hfail
  by_cases hwf : i.wellFormed s.params.inst = true
  · cases hx.unique (answers_ok_exec hwf hfail)
  · cases hx.unique (answers_illegal_exec hwf)

theorem answers_illegal_exec_iff : Answers (exec i s) .illegal ↔ i.wellFormed s.params.inst ≠ true := by
  refine ⟨fun hx hwf => ?_, answers_illegal_exec⟩
  by_cases hfail : FailsUnder s.params i
  · cases hx.unique (answers_fail_exec hfail)
  · cases hx.unique (answers_ok_exec hwf hfail)

end

/-- Settles O31: an operation with neither cause ends OK or ILLEGAL, and an answer has one status. -/
theorem failComesFromInvalidTimesAndUnknownBitsOnly : Obligations.FailComesFromInvalidTimesAndUnknownBitsOnly :=
  fun _ _ => answers_fail_exec_iff

/-- A step answers ILLEGAL where one of the four checks of R87 rejects the word. -/
theorem answers_illegal_step_iff {s : State} {w : OpBits} (hw : Presents s w) :
    Answers (step s) .illegal ↔ ¬ ∃ i, decodeOn s.params.inst w = .ok i := by
  simp only [decodeOn_eq_ok_iff]
  cases hd : decode w with
  | error why => exact iff_of_true (stepIllegal_of_error hw hd).answers (by simp)
  | ok i => simp [step_of_ok hw hd, answers_advanced, answers_illegal_exec_iff]

end Sys2Proof.Machine

/-! ## A word that the decoder accepts is legal for a row of the opcode table (R85, R90) -/

namespace Sys2Proof

/-! ### The operand codes are in the table's ranges (R83) -/

theorem addrByte_masked (r : Reg) : addrByte r &&& 0xF0 = 0 := by
  revert r
  decide

theorem boolCode_masked (p : Bool) : boolCode p &&& 0xFE = 0 := by cases p <;> rfl

theorem Port.code_masked (s : Port) : s.code &&& 0xFE = 0 := by cases s <;> rfl

theorem typeA_code (inst : Inst) (T : FlagType) : Machine.typeA inst T.code.toNat = true := by cases T <;> rfl

theorem roleA_code (r : Role) : Machine.roleA r.inst r.code.toNat = true := by cases r <;> rfl

theorem presetA_code (p : Preset) : Machine.presetA p.inst p.code.toNat = true := by cases p <;> rfl

theorem OpWord.ofBits_injective : Function.Injective OpWord.ofBits :=
  Function.LeftInverse.injective OpWord.toBits_ofBits

end Sys2Proof

namespace Sys2Proof.Machine

/-! ### The words of a row -/

/-- The byte is what the row's mask and pattern ask of the byte at bit `lo` of a word (R90). -/
def TableRow.MatchesByte (row : TableRow) (lo : Nat) (b : Byte) : Prop :=
  b &&& row.mask.extractLsb' lo 8 = row.pattern.extractLsb' lo 8

/-- Every row fixes the whole opcode byte, to that of its operation. -/
theorem TableRow.matchesByte_opcode {row : TableRow} (hrow : row ∈ tableRows) : row.MatchesByte 40 row.opcode.byte := by
  obtain ⟨hmask, hpattern⟩ := opcode_byte_of_mem_tableRows row hrow
  rw [TableRow.MatchesByte, hmask, hpattern]
  exact BitVec.and_allOnes

/-- A word whose six bytes are what the row asks matches the row. -/
theorem TableRow.matches_of_bytes {row : TableRow} {w : OpBits} {f : OpWord} (hf : OpWord.ofBits w = f)
    (hbytes : row.MatchesByte 40 f.op ∧ row.MatchesByte 32 f.a ∧ row.MatchesByte 24 f.b ∧ row.MatchesByte 16 f.c ∧
      row.MatchesByte 8 f.d ∧ row.MatchesByte 0 f.e) : row.Matches w := by
  subst hf
  apply OpWord.ofBits_injective
  simp only [OpWord.ofBits, BitVec.extractLsb'_and, OpWord.mk.injEq]
  exact hbytes

/-- Legality for a row, said of the six bytes of the word (R90). -/
theorem TableRow.legal_toBits {row : TableRow} {inst : Inst} {op a b c d e : Byte}
    (hbytes : row.MatchesByte 40 op ∧ row.MatchesByte 32 a ∧ row.MatchesByte 24 b ∧ row.MatchesByte 16 c ∧
      row.MatchesByte 8 d ∧ row.MatchesByte 0 e)
    (hlegal : row.legalA inst a.toNat = true) (hinst : row.onInst inst = true) :
    row.Legal inst (OpWord.toBits ⟨op, a, b, c, d, e⟩) := by
  have hfields := OpWord.ofBits_toBits ⟨op, a, b, c, d, e⟩
  have ha : BitVec.extractLsb' 32 8 (OpWord.toBits ⟨op, a, b, c, d, e⟩) = a := congrArg OpWord.a hfields
  exact ⟨TableRow.matches_of_bytes hfields hbytes, by rwa [ha], hinst⟩

/-- Every operation has a row. -/
theorem exists_row (o : Opcode) : ∃ row ∈ tableRows, row.opcode = o := by
  cases o <;> decide

/-- Each row's mask, ranges and constraint allow the words of its operations. -/
theorem TableRow.legal_encode {row : TableRow} {inst : Inst} {i : Instr} (hrow : row ∈ tableRows)
    (ho : row.opcode = i.opcode) (hwf : i.wellFormed inst = true) : row.Legal inst (encode i) := by
  have hop := ho ▸ TableRow.matchesByte_opcode hrow
  obtain ⟨o, pattern, mask, legalA, onInst⟩ := row
  cases i <;> simp only [Instr.opcode] at ho <;> subst ho <;>
    simp only [tableRows, List.cons_append, List.nil_append, List.mem_cons, List.not_mem_nil,
      TableRow.mk.injEq, reduceCtorEq, false_and, true_and, or_false, false_or] at hrow <;>
    obtain ⟨rfl, rfl, rfl, rfl⟩ := hrow
  case rd a => exact TableRow.legal_toBits ⟨hop, addrByte_masked a, rfl, rfl, rfl, rfl⟩ rfl rfl
  case wr a v => exact TableRow.legal_toBits ⟨hop, addrByte_masked a, BitVec.and_zero, rfl, rfl, rfl⟩ rfl rfl
  case ftrunc T _ | fexact T _ | fcompl T _ =>
    exact TableRow.legal_toBits ⟨hop, BitVec.and_zero, BitVec.and_zero, rfl, rfl, rfl⟩ (typeA_code inst T) rfl
  case funion T _ _ | finter T _ _ | fcont T _ _ =>
    exact TableRow.legal_toBits ⟨hop, BitVec.and_zero, BitVec.and_zero, BitVec.and_zero, rfl, rfl⟩
      (typeA_code inst T) rfl
  case pas r =>
    obtain rfl := of_decide_eq_true hwf
    exact TableRow.legal_toBits ⟨hop, BitVec.and_zero, rfl, rfl, rfl, rfl⟩ (roleA_code r) rfl
  case pfrom r v =>
    obtain rfl := of_decide_eq_true hwf
    exact TableRow.legal_toBits ⟨hop, BitVec.and_zero, BitVec.and_zero, rfl, rfl, rfl⟩ (roleA_code r) rfl
  case vicget =>
    obtain rfl := of_decide_eq_true hwf
    exact TableRow.legal_toBits ⟨hop, rfl, rfl, rfl, rfl, rfl⟩ rfl rfl
  case vicset n =>
    obtain rfl := of_decide_eq_true hwf
    exact TableRow.legal_toBits ⟨hop, BitVec.and_zero, rfl, rfl, rfl, rfl⟩ rfl rfl
  case dpreset p =>
    obtain rfl := of_decide_eq_true hwf
    exact TableRow.legal_toBits ⟨hop, BitVec.and_zero, rfl, rfl, rfl, rfl⟩ (presetA_code p) rfl
  case ddefault port => exact TableRow.legal_toBits ⟨hop, Port.code_masked port, rfl, rfl, rfl, rfl⟩ rfl rfl
  case tsetpm pm => exact TableRow.legal_toBits ⟨hop, boolCode_masked pm, rfl, rfl, rfl, rfl⟩ rfl rfl
  case tset h m sec t pm =>
    exact TableRow.legal_toBits
      ⟨hop, BitVec.and_zero, BitVec.and_zero, BitVec.and_zero, BitVec.and_zero, boolCode_masked pm⟩ rfl rfl
  case tval | tispm | thour => exact TableRow.legal_toBits ⟨hop, rfl, rfl, rfl, rfl, rfl⟩ rfl rfl

/-- The table and the decoder accept the same words on a block (R85, R87, R90). -/
theorem legalWord_iff {inst : Inst} {w : OpBits} : LegalWord inst w ↔ ∃ i, decodeOn inst w = .ok i := by
  constructor
  · rintro ⟨row, hrow, hlegal⟩
    obtain ⟨i, hi, -⟩ := hlegal.exists_decodeOn hrow
    exact ⟨i, hi⟩
  · rintro ⟨i, hi⟩
    obtain ⟨hdecode, hwf⟩ := decodeOn_eq_ok_iff.1 hi
    obtain ⟨row, hrow, ho⟩ := exists_row i.opcode
    exact encode_of_decode hdecode ▸ ⟨row, hrow, TableRow.legal_encode hrow ho hwf⟩

/-- Settles O32: the step answers ILLEGAL where the decoder rejects the word, and the decoder accepts what the table
does. -/
theorem illegalExactlyForReservedWords : Obligations.IllegalExactlyForReservedWords :=
  fun _ _ hw => (answers_illegal_step_iff hw).trans (not_congr legalWord_iff.symm)

end Sys2Proof.Machine
end

section
/-! PROOFS. Reset and hazards (spec/70_reset_and_hazards.md): the step that asserts `rst` and a `DDEFAULT` after it (R220, R221),
and the length of a run (R44, R240). -/

namespace Sys2Proof.Machine

/-! ## Asserting `rst` (R220, R221) -/

/-- `DDEFAULT` of a port whose direction register holds the default already changes no register (R161). -/
theorem ddefault_keeps_reads_of_read_ddr {t : State} {port : Port} (h : t.read port.ddr = t.params.ddrDefault port) :
    ∃ u, exec (.ddefault port) t = .next u ∧ ∀ r, u.read r = t.read r := by
  obtain ⟨u, hx, -, hwritten, hother, -⟩ := performs_ddefault h.symm
  refine ⟨u, hx, fun r => ?_⟩
  by_cases hr : r = port.ddr
  · rw [hr]
    exact hwritten _ List.mem_cons_self
  · exact hother r (mt List.mem_singleton.1 hr)

/-- Settles O44: the step is `applyReset` with the index advanced, and reset leaves in each direction register the default
that `DDEFAULT` loads. -/
theorem assertingRstResetsAllSixteenRegisters : Obligations.AssertingRstResetsAllSixteenRegisters :=
  fun s hrst => ⟨s.applyReset.advance, step_of_rst hrst, State.read_applyReset s, rfl, rfl, rfl, fun port =>
    ddefault_keeps_reads_of_read_ddr (State.read_resetOf_ddr s.params port)⟩

/-! ## The length of a run (R44, R240) -/

/-- While a request is left, the step answers it, whether it is a word or `rst`; it keeps the parameters and the sequence and
advances the index (log 8). -/
theorem step_of_pc_lt_length {s : State} (h : s.pc < s.prog.length) :
    ∃ t, step s = .next t ∧ t.params = s.params ∧ t.prog = s.prog ∧ t.pc = s.pc + 1 := by
  have hfetch : s.fetch = some s.prog[s.pc] := List.getElem?_eq_getElem h
  cases hq : s.prog[s.pc] with
  | rst => exact ⟨_, step_of_rst (hq ▸ hfetch), rfl, rfl, rfl⟩
  | op w => exact step_of_word (hq ▸ hfetch)

/-- With no request left, the step says that the run is over (log 10). -/
theorem step_of_pc_eq_length {s : State} (h : s.pc = s.prog.length) : step s = .fault .runEnded := by
  have hfetch : s.fetch = none := List.getElem?_eq_none h.ge
  rw [step, hfetch]

/-- A run of as many steps as requests are left reaches the end of the sequence, by induction on that number. -/
theorem run_reaches_end {n : Nat} {s : State} (h : s.pc + n = s.prog.length) :
    ∃ t : State, Host.Core.run core n s = .next t ∧ t.pc = s.prog.length ∧ t.prog = s.prog ∧ t.params = s.params := by
  induction n generalizing s with
  | zero => exact ⟨s, rfl, h, rfl, rfl⟩
  | succ n ih =>
    obtain ⟨u, hstep, hparams, hprog, hpc⟩ := step_of_pc_lt_length (s := s) (by omega)
    have hleft : u.pc + n = u.prog.length := by rw [hpc, hprog]; omega
    rw [run_succ_of_step hstep, ← hprog, ← hparams]
    exact ih hleft

/-- Settles O48: the run reaches the end of the sequence, where nothing is left to present. -/
theorem everyFiniteRunEndsAfterItsLastRequest : Obligations.EveryFiniteRunEndsAfterItsLastRequest := by
  intro s hle
  obtain ⟨t, hrun, hpc, hprog, hparams⟩ := run_reaches_end (Nat.add_sub_of_le hle)
  exact ⟨t, hrun, hpc, hprog, hparams, step_of_pc_eq_length (hpc.trans (congrArg _ hprog.symm))⟩

end Sys2Proof.Machine
end
